-- ==== Sys2Proof/Word.lean ====
section
/-! DEFINITION. The W-bit values of the block (spec 00_scope.md R7, R13) and the widths its interface fixes (R10). -/

namespace Sys2Proof

/-- A W-bit value (a packed row-word, the output register, a mask) as its unsigned number, below 2^W. W is a field of the
configuration (R7), so the width is not in the type: `CfgData.Sized` and `State.Sized` say it. -/
abbrev Word := Nat

/-- `NOT m` on W-bit values (R13). -/
def notW (W : Nat) (m : Word) : Word := (2 ^ W - 1) ^^^ (m % 2 ^ W)

/-- `a << n` inside the width W: bits shifted past the top are dropped (R13). -/
def shlW (W : Nat) (a : Word) (n : Nat) : Word := (a <<< n) % 2 ^ W

/-- The 32-bit command word of port M (R10, R60). -/
abbrev Command := BitVec 32

/-- An 8-bit value: the response of GETPIXEL (R68) and the sentinel (R7). -/
abbrev Byte := BitVec 8

/-- The index of a pixel cell, 0..24 (R21). -/
abbrev CellIdx := Fin 25

/-- The index of a row-group, of its packed row-word, and of a rotation state: 0, 1 or 2 (R6, R24). -/
abbrev RowGroup := Fin 3

/-- A slot (position) of a row-group, 0..8 (R6, R71). -/
abbrev Slot := Fin 9

end Sys2Proof
end

