-- ==== Sys2Proof/Syntax.lean ====
section
/-! DEFINITION. The seven commands (R62), one constructor per row of spec/opcode_table.json. -/

namespace Sys2Proof

/-- A command of port M with its operands (R61 to R65). `row`, `col` and `val` are the unsigned numbers of R63,
used as they stand; `img` and `cells` are the bit fields of R64 and R65. TOGGLEPIXEL and GETPIXEL carry the `val`
field of format P, which they ignore (R63, R82). -/
inductive Instr where
  | clearImage
  | setPixel (row col val : Nat)
  | togglePixel (row col val : Nat)
  | getPixel (row col val : Nat)
  | setImage (img : BitVec 25)
  | setColumn (col : Nat) (cells : BitVec 5)
  | refresh
deriving DecidableEq, Repr

end Sys2Proof
end

