-- ==== Sys2Proof/WellFormed.lean ====
section
/-! DEFINITION. Which commands have an encoding: the operand numbers fit their 8-bit fields (R10, R63, R65). -/

namespace Sys2Proof

/-- A number an 8-bit unsigned field can carry (R63). -/
def fitsByte (n : Nat) : Bool := decide (n < 256)

/-- The command has a command word (R60 to R65): `row`, `col` and `val` are 0..255. The image and column fields
have their widths by type. Being out of the range 1..5 is not ill-formed: it is a soft-fail (R91). -/
def Instr.wf : Instr → Bool
  | .clearImage => true
  | .setPixel row col val => fitsByte row && fitsByte col && fitsByte val
  | .togglePixel row col val => fitsByte row && fitsByte col && fitsByte val
  | .getPixel row col val => fitsByte row && fitsByte col && fitsByte val
  | .setImage _ => true
  | .setColumn col _ => fitsByte col
  | .refresh => true

end Sys2Proof
end

