-- ==== Sys2Proof/Decode.lean ====
section
/-! DEFINITION. The command word: the decoder (total, R66), the encoder and the assembler's notation (R60 to R67,
R79, R80). -/

namespace Sys2Proof

/-- Why a word is no command. -/
inductive Reject where
  /-- The opcode is 0x0 or 0x8 to 0xF (R67). -/
  | reservedOpcode (op : BitVec 4)
deriving DecidableEq, Repr

/-- `op = C[31:28]` (R60). -/
def opField (C : Command) : BitVec 4 := C.extractLsb' 28 4

/-- `row = C[23:16]` (R63). -/
def rowField (C : Command) : BitVec 8 := C.extractLsb' 16 8

/-- `col = C[15:8]` (R63, R65). -/
def colField (C : Command) : BitVec 8 := C.extractLsb' 8 8

/-- `val = C[7:0]` (R63). -/
def valField (C : Command) : BitVec 8 := C.extractLsb' 0 8

/-- `img = C[24:0]` (R64). -/
def imgField (C : Command) : BitVec 25 := C.extractLsb' 0 25

/-- `cells = C[4:0]` (R65). -/
def cellsField (C : Command) : BitVec 5 := C.extractLsb' 0 5

/-- The decoder: the opcode alone selects the command (R62), the unused bits take no part (R66), and the
opcodes 0x0 and 0x8 to 0xF are rejected by name (R67). -/
def decode (C : Command) : Except Reject Instr :=
  match (opField C).toNat with
  | 1 => .ok .clearImage
  | 2 => .ok (.setPixel (rowField C).toNat (colField C).toNat (valField C).toNat)
  | 3 => .ok (.togglePixel (rowField C).toNat (colField C).toNat (valField C).toNat)
  | 4 => .ok (.getPixel (rowField C).toNat (colField C).toNat (valField C).toNat)
  | 5 => .ok (.setImage (imgField C))
  | 6 => .ok (.setColumn (colField C).toNat (cellsField C))
  | 7 => .ok .refresh
  | _ => .error (.reservedOpcode (opField C))

/-- The command an opcode-table word of `nbits` bits is, its bits above `nbits` being 0. Port M takes whole 32-bit
words (R43, R60), so there is no byte order to lay out. -/
def decodeTableWord (nbits w : Nat) : Option Instr :=
  if nbits ≤ 32 then
    match decode (BitVec.ofNat 32 (w % 2 ^ nbits)) with
    | .ok i => some i
    | .error _ => none
  else none

/-- The `op` of a command (R62). -/
def opcode : Instr → BitVec 4
  | .clearImage => 0x1
  | .setPixel .. => 0x2
  | .togglePixel .. => 0x3
  | .getPixel .. => 0x4
  | .setImage _ => 0x5
  | .setColumn .. => 0x6
  | .refresh => 0x7

/-- Format P with its unused bits 0 (R61, R66). -/
def formatP (op : BitVec 4) (row col val : Nat) : Command :=
  op ++ 0#4 ++ BitVec.ofNat 8 row ++ BitVec.ofNat 8 col ++ BitVec.ofNat 8 val

/-- The command word of a command, unused bits written 0 (R61, R62, R66). -/
def encode : Instr → Command
  | .clearImage => 0x1#4 ++ 0#28
  | .setPixel row col val => formatP 0x2 row col val
  | .togglePixel row col val => formatP 0x3 row col val
  | .getPixel row col val => formatP 0x4 row col val
  | .setImage img => 0x5#4 ++ 0#3 ++ img
  | .setColumn col cells => 0x6#4 ++ 0#12 ++ BitVec.ofNat 8 col ++ 0#3 ++ cells
  | .refresh => 0x7#4 ++ 0#28

/-- The bits of a word that its format names: the opcode and the fields of R61. Every other bit is unused (R66). -/
def namedBits (C : Command) : Command :=
  match (opField C).toNat with
  | 2 | 3 | 4 => 0xF0FFFFFF
  | 5 => 0xF1FFFFFF
  | 6 => 0xF000FF1F
  | _ => 0xF0000000

/-- One line of the assembler's notation (R79). The image and column operands are the characters of R80;
`tick` is the directive that stands for one tick on port T and encodes nothing (R81). -/
inductive AsmLine where
  | clearImage
  | setPixel (row col val : Nat)
  | togglePixel (row col : Nat)
  | getPixel (row col : Nat)
  | setImage (image : List Char)
  | setColumn (col : Nat) (cells : List Char)
  | refresh
  | tick
deriving DecidableEq, Repr

/-- One cell character (R80). -/
def cellChar : Char → Option Bool
  | '0' => some false
  | '1' => some true
  | _ => none

/-- What is read after a row with `n` rows to follow: a '/' may stand between two rows (R80). -/
def afterRow : Nat → List Char → List Char
  | _ + 1, '/' :: tail => tail
  | _, rest => rest

/-- The characters of `n` rows of five cells, a '/' allowed between two rows (R80): the cells in order. -/
def rowChars : Nat → List Char → Option (List Bool)
  | 0, [] => some []
  | 0, _ => none
  | n + 1, a :: b :: c :: d :: e :: rest => do
    let row ← [a, b, c, d, e].mapM cellChar
    let more ← rowChars n (afterRow n rest)
    return row ++ more
  | _ + 1, _ => none

/-- The operand field a cell list stands for: character j is bit j (R80). -/
def cellBits (n : Nat) (cells : List Bool) : BitVec n := (BitVec.ofBoolListLE cells).setWidth n

/-- The command a line of the notation stands for; `none` for the directive TICK and for a malformed cell string
(R79, R80). -/
def assemble : AsmLine → Option Instr
  | .clearImage => some .clearImage
  | .setPixel row col val => some (.setPixel row col val)
  | .togglePixel row col => some (.togglePixel row col 0)
  | .getPixel row col => some (.getPixel row col 0)
  | .setImage image => (rowChars 5 image).map fun cs => .setImage (cellBits 25 cs)
  | .setColumn col cells => (rowChars 1 cells).map fun cs => .setColumn col (cellBits 5 cs)
  | .refresh => some .refresh
  | .tick => none

/-- The word a line encodes, where it encodes one: its operands are 0..255 (R79). -/
def assembleWord (line : AsmLine) : Option Command :=
  match assemble line with
  | some i => if i.wf then some (encode i) else none
  | none => none

/-- The characters without the blanks at their two ends. -/
def trimBlanks (cs : List Char) : List Char :=
  ((cs.dropWhile (· == ' ')).reverse.dropWhile (· == ' ')).reverse

/-- The pieces of a text between commas (R79). -/
def splitCommas : List Char → List (List Char)
  | [] => [[]]
  | c :: cs =>
    match splitCommas cs with
    | [] => []
    | piece :: pieces => if c == ',' then [] :: piece :: pieces else (c :: piece) :: pieces

/-- A decimal number (R79); none where there is no digit or another character. -/
def decimal (cs : List Char) : Option Nat :=
  if cs.isEmpty then none
  else cs.foldlM (fun n c => if '0' ≤ c ∧ c ≤ '9' then some (10 * n + (c.toNat - '0'.toNat)) else none) 0

/-- The operands of a line: none, or the pieces between commas. -/
def operandTexts (cs : List Char) : List (List Char) :=
  if (trimBlanks cs).isEmpty then [] else (splitCommas cs).map trimBlanks

/-- The line a mnemonic and its operand texts are (R79); none where the mnemonic or the number of operands is not
one of the table's (R81). -/
def lineOf (name : List Char) (ops : List (List Char)) : Option AsmLine :=
  if name = "CLEARIMAGE".toList then
    match ops with
    | [] => some .clearImage
    | _ => none
  else if name = "SETPIXEL".toList then
    match ops with
    | [row, col, val] => do return .setPixel (← decimal row) (← decimal col) (← decimal val)
    | _ => none
  else if name = "TOGGLEPIXEL".toList then
    match ops with
    | [row, col] => do return .togglePixel (← decimal row) (← decimal col)
    | _ => none
  else if name = "GETPIXEL".toList then
    match ops with
    | [row, col] => do return .getPixel (← decimal row) (← decimal col)
    | _ => none
  else if name = "SETIMAGE".toList then
    match ops with
    | [image] => some (.setImage image)
    | _ => none
  else if name = "SETCOLUMN".toList then
    match ops with
    | [col, cells] => do return .setColumn (← decimal col) cells
    | _ => none
  else if name = "REFRESH".toList then
    match ops with
    | [] => some .refresh
    | _ => none
  else if name = "TICK".toList then
    match ops with
    | [] => some .tick
    | _ => none
  else none

/-- One line of text (R79): a mnemonic in capitals, its operands, and what ';' starts left out. -/
def parseLine (text : List Char) : Option AsmLine :=
  let body := trimBlanks (text.takeWhile (· != ';'))
  let name := body.takeWhile (· != ' ')
  lineOf name (operandTexts (body.drop name.length))

/-- The word a line of text encodes, where it encodes one (R79 to R81). -/
def assembleText (text : List Char) : Option Command :=
  match parseLine text with
  | some line => assembleWord line
  | none => none

end Sys2Proof
end

