-- ==== Sys2Proof/Machine/Operands.lean ====
section
/-! DEFINITION. The operand forms: pixel addresses, the range predicates (R41, R91), and the values bulk operands
give the buffer (R64, R65). -/

namespace Sys2Proof.Machine

/-- `in_range(row, col)` (R91). -/
abbrev InRange (row col : Nat) : Prop := (1 ≤ row ∧ row ≤ 5) ∧ (1 ≤ col ∧ col ≤ 5)

/-- `col_in_range(col)` (R91). -/
abbrev ColInRange (col : Nat) : Prop := 1 ≤ col ∧ col ≤ 5

/-- `val_in_range(val)` (R91). -/
abbrev ValInRange (val : Nat) : Prop := val = 0 ∨ val = 1

/-- `idx(r, c) = 5*(r-1) + (c-1)` (R21, R41), for 1-based r and c. -/
def idx (r c : Nat) : Nat := 5 * (r - 1) + (c - 1)

/-- An address in range reaches one of the 25 cells (R41, R44). -/
theorem idx_lt {row col : Nat} (h : InRange row col) : idx row col < 25 := by
  unfold idx; omega

/-- The cell an address reaches; none when it is out of range (R41, R42: no address wraps). -/
def cellOf (row col : Nat) : Option CellIdx :=
  if h : InRange row col then some ⟨idx row col, idx_lt h⟩ else none

/-- The 0-based column a column number reaches; none when it is out of range (R91, R97). -/
def columnOf (col : Nat) : Option (Fin 5) :=
  if h : ColInRange col then some ⟨col - 1, by omega⟩ else none

/-- `MemWrite(0, 25, v)` (R14, R64): cell i holds bit i of `v`. -/
def imageCells (v : BitVec 25) : Vector Bool 25 := Vector.ofFn fun i => v.getLsbD i.val

/-- The buffer with column `c` + 1 replaced: row j+1 of it holds bit j of `v`, the other columns as they were (R65,
R97). Cell i lies in row i / 5 + 1 and column i mod 5 + 1 (R21). -/
def columnCells (px : Vector Bool 25) (c : Fin 5) (v : BitVec 5) : Vector Bool 25 :=
  Vector.ofFn fun i => if i.val % 5 = c.val then v.getLsbD (i.val / 5) else px[i]

end Sys2Proof.Machine
end

