-- ==== Sys2Proof/Config.lean ====
section
/-! DEFINITION. The configuration record `Cfg` of R7 with its types and its constraints K1 to K4 (R8), the values the
spec leaves open at reset, as constants without a body, and the reference configuration of R75. -/

namespace Sys2Proof

/-- The values of a configuration, not yet checked (R7). `W` is the width in bits of a packed row-word and of the output
register, `cell` is CELL, `pos` is POS, `base` is BASE; `pos` means something only at the slots where `cell` is not
`none`. -/
structure CfgData where
  W        : Nat
  ledMask  : Word
  base     : Vector Word 3
  cell     : Vector (Vector (Option CellIdx) 9) 3
  pos      : Vector (Vector Nat 9) 3
  pixelErr : Byte
deriving DecidableEq, Repr, Inhabited

namespace CfgData

/-- CELL[g][k] (R7). -/
def cellAt (c : CfgData) (g : RowGroup) (k : Slot) : Option CellIdx := c.cell[g][k]

/-- POS[g][k] (R7). -/
def posAt (c : CfgData) (g : RowGroup) (k : Slot) : Nat := c.pos[g][k]

/-- BASE[g] (R7). -/
def baseAt (c : CfgData) (g : RowGroup) : Word := c.base[g]

/-- `NOT LED_MASK`: the bits of the output register that belong to the environment (R27). -/
abbrev notLedMask (c : CfgData) : Word := notW c.W c.ledMask

/-- The fields have the types R7 gives them: W is positive, the masks are W-bit constants, and the position of an occupied
slot is a bit index 0..W-1. -/
abbrev Sized (c : CfgData) : Prop :=
  0 < c.W ∧ c.ledMask < 2 ^ c.W ∧ ∀ g : RowGroup, c.baseAt g < 2 ^ c.W ∧
    ∀ k : Slot, c.cellAt g k ≠ none → c.posAt g k < c.W

/-- K1 (R8): every cell index occurs as CELL[g][k] for exactly one pair (g, k). -/
abbrev K1 (c : CfgData) : Prop :=
  ∀ i : CellIdx, ∃ (g : RowGroup) (k : Slot), c.cellAt g k = some i ∧
    ∀ (g' : RowGroup) (k' : Slot), c.cellAt g' k' = some i → g' = g ∧ k' = k

/-- K2 (R8): within a row-group the positions of the occupied slots are pairwise distinct. -/
abbrev K2 (c : CfgData) : Prop :=
  ∀ (g : RowGroup) (k k' : Slot), c.cellAt g k ≠ none → c.cellAt g k' ≠ none →
    c.posAt g k = c.posAt g k' → k = k'

/-- K3 (R8): the base masks and the positions of the occupied slots lie inside LED_MASK. -/
abbrev K3 (c : CfgData) : Prop :=
  ∀ g : RowGroup, c.baseAt g &&& c.notLedMask = 0 ∧
    ∀ k : Slot, c.cellAt g k ≠ none → c.ledMask.testBit (c.posAt g k) = true

/-- K4 (R8): the sentinel is neither 0x00 nor 0x01. -/
abbrev K4 (c : CfgData) : Prop := c.pixelErr ≠ 0x00 ∧ c.pixelErr ≠ 0x01

/-- What a configuration must satisfy: the types of R7 and the constraints of R8. -/
abbrev Legal (c : CfgData) : Prop := c.Sized ∧ c.K1 ∧ c.K2 ∧ c.K3 ∧ c.K4

end CfgData

/-- A legal configuration (R7 under R8): the check is part of the value, so the machine is never given one
that is not of R7's types or breaks K1 to K4. -/
structure Cfg extends CfgData where
  legal : toCfgData.Legal
deriving DecidableEq, Repr

namespace Config

/-- The width W of the block at hand: 32 (R7, 92_eei_decisions.md D1). -/
def width : Nat := 32

/-- OPEN (R7, D9, 93 U1, U2): the values of the wiring table, the masks and the sentinel of the block at hand. Its W is
not used. No body: nothing in Lean evaluates it. -/
opaque data : CfgData

/-- FREE VALUE (R31, D12, 93 U8, U9): what the output register carries when reset happens; its low W
bits count. No body. -/
opaque outAtReset : Word

/-- Some legal configuration: cell 9g+k in slot k of row-group g at bit k. It is here because a constant of
type `Cfg` needs one; it is not `REF-MB1` and nothing rests on its numbers. -/
def someData : CfgData where
  W        := width
  ledMask  := 0x1FF
  base     := Vector.replicate 3 0
  cell     := Vector.ofFn fun g => Vector.ofFn fun k =>
    if h : 9 * g.val + k.val < 25 then some ⟨9 * g.val + k.val, h⟩ else none
  pos      := Vector.replicate 3 (Vector.ofFn fun k => k.val)
  pixelErr := 0x02#8

theorem someData_legal : someData.Legal := by decide

/-- The configuration of the block at hand (R7): `data` at the width 32, where that is legal (R8). Nothing is
known of it but its width, its types and K1 to K4. -/
def cfg : Cfg :=
  if h : { data with W := width : CfgData }.Legal then { toCfgData := { data with W := width }, legal := h }
  else { toCfgData := someData, legal := someData_legal }

/-- The reference configuration `REF-MB1`, value by value from the table of R75. It is not normative and gives the
numbers of the spec's test vectors: no definition of the machine mentions it (R9), and every rule is over any `Cfg`. -/
def refMb1Data : CfgData where
  W        := 32
  ledMask  := 0x0000FFF0
  base     := #v[0x00003FF0, 0x00005FF0, 0x00009FF0]
  cell     := #v[
    #v[some 0, some 2, some 4, some 19, some 18, some 17, some 16, some 15, some 11],
    #v[some 14, some 10, some 12, some 1, some 3, some 23, some 21, none, none],
    #v[some 22, some 24, some 20, some 5, some 6, some 7, some 8, some 9, some 13]]
  pos      := Vector.replicate 3 #v[4, 5, 6, 7, 8, 9, 10, 11, 12]
  pixelErr := 0xFF

/-- `REF-MB1` satisfies K1 to K4 (R75). -/
theorem refMb1Data_legal : refMb1Data.Legal := by decide

/-- `REF-MB1` as a configuration a block can have (R75). -/
def refMb1 : Cfg := { toCfgData := refMb1Data, legal := refMb1Data_legal }

end Config

end Sys2Proof
end

