-- ==== Sys2Proof/Machine/State.lean ====
section
/-! DEFINITION. What the block holds (R20), what the environment still has to do (R12, R147), the history of the
block's outputs (R33, R146), the two ways a step can stop, and the state right after reset (R31). -/

namespace Sys2Proof.Machine

/-- The pixel buffer `px[0..24]`: 25 cells of one bit (R21). -/
abbrev Pixels := Vector Bool 25

/-- One output event (R77). -/
inductive OutEvent where
  /-- `Clr(m)`: `out <- out AND NOT m`. -/
  | clr (m : Word)
  /-- `Set(m)`: `out <- out OR m`. -/
  | set (m : Word)
deriving DecidableEq, Repr

/-- What the buffer-write micro-step of a mutator writes (R92 to R97). -/
inductive BufferWrite where
  /-- `MemWrite(0, 25, v)`: bit i to cell i (R14; CLEARIMAGE with 0, SETIMAGE). -/
  | image (v : BitVec 25)
  /-- One cell (SETPIXEL). -/
  | setCell (i : CellIdx) (b : Bool)
  /-- One cell complemented (TOGGLEPIXEL). -/
  | toggleCell (i : CellIdx)
  /-- The five cells of column `c` + 1, bit j to row j+1 (SETCOLUMN). -/
  | column (c : Fin 5) (v : BitVec 5)
deriving DecidableEq, Repr

/-- A micro-step of a port-M command (R11, R51, R90, R95, R100): indivisible. -/
inductive Micro where
  /-- Write the buffer and make all three row-words stale (R51). -/
  | write (b : BufferWrite)
  /-- Recompute one stale row-word (R90). -/
  | recompute
  /-- EMITSTEP (R100). -/
  | emit
  /-- Respond the value of a cell, or the sentinel when there is none (R95). -/
  | respond (cell : Option CellIdx)
deriving DecidableEq, Repr

/-- One thing the environment or the schedule lets happen next (R12, R50, R115, R147). -/
inductive Turn where
  /-- Port M goes: it performs its next micro-step, or issues its next command. `pick` is the row-group a
  RECOMPUTE micro-step takes if it is stale (R51: the order is open). -/
  | main (pick : RowGroup)
  /-- A tick on port T (R102). -/
  | tick
  /-- The environment puts `v` on the output bits outside LED_MASK (R27: a liberty). -/
  | foreign (v : Word)
  /-- The environment puts `v` on the output bits inside LED_MASK (R139: it must not, the block does not notice). -/
  | ledWrite (v : Word)
  /-- A command word on port T (R55: outside the interface, refused). -/
  | portTCommand (C : Command)
  /-- The reset event, "driver construction" (R130). -/
  | construct
deriving DecidableEq, Repr

/-- The state of the block with its configuration, its inputs to come and its output history. -/
@[ext]
structure State where
  /-- The configuration (R7, R8): constant, no step changes it (R29). -/
  cfg         : Cfg
  /-- The pixel buffer (R21). -/
  px          : Pixels
  /-- The packed row-words, W bits each (R23). -/
  rw          : Vector Word 3
  /-- The rotation cursor (R24). -/
  cur         : RowGroup
  /-- The stale set (R26): `stale[g]` says that g is in it. -/
  stale       : Vector Bool 3
  /-- The output register, W bits (R27). -/
  out         : Word
  /-- The micro-steps the port-M command in progress has yet to perform; empty when the block is quiescent (R11, R49). -/
  todo        : List Micro
  /-- Reset has happened (R32, R130). -/
  constructed : Bool
  /-- The command words port M has yet to issue, the next one first (R12, R49). -/
  portM       : List Command
  /-- The schedule: what happens next, in order (R12). When it is empty port M goes and nothing interrupts it. -/
  env         : List Turn
  /-- The history of GETPIXEL responses, the oldest first (R33, R68, R146). -/
  responses   : List Byte
  /-- The history of output events, the oldest first (R33, R77, R146). -/
  events      : List OutEvent
deriving DecidableEq, Repr

/-- The reasons a step faults: none. "The block raises no synchronous exception, fault or trap, ever" (R110). -/
inductive Fault where
deriving DecidableEq, Repr

/-- The reasons a step is refused. Each is an act of the environment or a configuration the spec gives no meaning
(R147, 93_implementation_defined.md U1, U4, U5, U13); all are safe. -/
inductive Refusal where
  /-- An instruction without a meaning, by its mnemonic. Raised by no arm of `exec`. -/
  | notModelled (mnemonic : String)
  /-- A command, a tick or any other turn before reset (R32, R134, U5). Raised by `issue` and `unresetStep`. Safe. -/
  | notReset
  /-- A port-M command before the previous one has completed (R49, R55, U4). Raised by `issue`. Safe. -/
  | overlappingCommand
  /-- A command presented on port T (R55, U4). Raised by `takeTurn`. Safe. -/
  | commandOnPortT
  /-- A reset event after the first (R130, U13). Raised by `takeTurn`. Safe. -/
  | secondReset
  /-- Configuration values that are not of R7's types or break one of K1 to K4 (R8, U1). Raised by `configure`. Safe. -/
  | illegalConfiguration
deriving DecidableEq, Repr

/-- The state right after reset of a block with configuration `c` whose output register carries the low W bits of `o` (R31, R132):
the buffer blank, the row-words at their base masks, the cursor at 0, nothing stale, nothing emitted. -/
def State.resetWith (c : Cfg) (o : Word) : State where
  cfg         := c
  px          := Vector.replicate 25 false
  rw          := c.base
  cur         := 0
  stale       := Vector.replicate 3 false
  out         := o % 2 ^ c.W
  todo        := []
  constructed := true
  portM       := []
  env         := []
  responses   := []
  events      := []

/-- The machine right after reset (R31): the open configuration and the open value of `out`, nothing placed on
either port. -/
def State.reset : State := State.resetWith Config.cfg Config.outAtReset

end Sys2Proof.Machine
end

