-- ==== Sys2Proof/Machine/Ops.lean ====
section
/-! DEFINITION. The named operations over the state: packing (R72), the micro-steps (R51, R90, R95, R100), the
environment's turns (R27, R102, R139), the interleaving of a command with them (R49, R50), and the two ways a block
comes to be reset. -/

namespace Sys2Proof.Machine

/-! ### Packing -/

/-- What slot `k` of row-group `g` contributes: `zext_W(px[CELL[g][k]]) << POS[g][k]`, nothing when empty (R71, R72). -/
def slotBits (c : CfgData) (g : RowGroup) (px : Pixels) (k : Slot) : Word :=
  match c.cellAt g k with
  | none => 0
  | some i => shlW c.W px[i].toNat (c.posAt g k)

/-- `pack(g, px)` (R72): the base mask with every slot XORed in, k from 0 to 8. -/
def pack (c : CfgData) (g : RowGroup) (px : Pixels) : Word :=
  (List.finRange 9).foldl (fun w k => w ^^^ slotBits c g px k) (c.baseAt g)

/-- The three packed row-words of a buffer (R23). -/
def packAll (c : CfgData) (px : Pixels) : Vector Word 3 := Vector.ofFn fun g => pack c g px

/-- The blank buffer (R21). -/
def blank : Pixels := Vector.replicate 25 false

/-- The stale set with every row-group in it (R51). -/
def allStale : Vector Bool 3 := Vector.replicate 3 true

/-- The empty stale set (R26). -/
def noneStale : Vector Bool 3 := Vector.replicate 3 false

/-! ### The command in progress and the inputs to come -/

/-- The micro-steps still to do become `ms`. -/
def setTodo (ms : List Micro) (s : State) : State := { s with todo := ms }

/-- The schedule becomes `ts`. -/
def setEnv (ts : List Turn) (s : State) : State := { s with env := ts }

/-- What port M has yet to issue becomes `Cs`. -/
def setPortM (Cs : List Command) (s : State) : State := { s with portM := Cs }

/-! ### Micro-steps -/

/-- The buffer a buffer-write micro-step leaves (R92 to R97). -/
def applyWrite (b : BufferWrite) (px : Pixels) : Pixels :=
  match b with
  | .image v => imageCells v
  | .setCell i v => px.set i.val v
  | .toggleCell i => px.set i.val (!px[i])
  | .column c v => columnCells px c v

/-- The buffer-write micro-step (R51): the buffer is written at once, and every row-word becomes stale. -/
def writeBuffer (b : BufferWrite) (s : State) : State :=
  { s with px := applyWrite b s.px, stale := allStale }

/-- The row-group a RECOMPUTE takes: `p` when stale, else the next stale one after it; none when none is stale.
Every choice of a stale g is `chooseStale g`, so all orders are admitted (R51, R90). -/
def chooseStale (p : RowGroup) (stale : Vector Bool 3) : Option RowGroup :=
  if stale[p] then some p
  else if stale[p + 1] then some (p + 1)
  else if stale[p + 2] then some (p + 2)
  else none

/-- `rw[g] <- pack(g, px) ; stale <- stale \ {g}` (R90): the whole word at once. -/
def recomputeWord (g : RowGroup) (s : State) : State :=
  { s with rw := s.rw.set g.val (pack s.cfg.toCfgData g s.px), stale := s.stale.set g.val false }

/-- One RECOMPUTE micro-step (R90). -/
def recompute (p : RowGroup) (s : State) : State :=
  match chooseStale p s.stale with
  | some g => recomputeWord g s
  | none => s

/-- `emit Clr(m)` (R77). -/
def emitClr (m : Word) (s : State) : State :=
  { s with out := s.out &&& notW s.cfg.W m, events := s.events ++ [.clr m] }

/-- `emit Set(m)` (R77). -/
def emitSet (m : Word) (s : State) : State :=
  { s with out := s.out ||| m, events := s.events ++ [.set m] }

/-- `cur <- (cur + 1) mod 3` (R24, R100). -/
def advance (s : State) : State := { s with cur := s.cur + 1 }

/-- EMITSTEP (R100): clear LED_MASK, set the row-word at the cursor as it stands, advance. -/
def emitStep (s : State) : State :=
  advance (emitSet s.rw[s.cur] (emitClr s.cfg.ledMask s))

/-- The response of GETPIXEL for a cell, or for an address out of range (R68, R95). -/
def responseOf (s : State) (cell : Option CellIdx) : Byte :=
  match cell with
  | some i => (BitVec.ofBool s.px[i]).setWidth 8
  | none => s.cfg.pixelErr

/-- `respond(v)` (R14, R68). -/
def respond (v : Byte) (s : State) : State := { s with responses := s.responses ++ [v] }

/-- One micro-step; `p` is the schedule's choice for a RECOMPUTE. -/
def runMicro (m : Micro) (p : RowGroup) (s : State) : State :=
  match m with
  | .write b => writeBuffer b s
  | .recompute => recompute p s
  | .emit => emitStep s
  | .respond cell => respond (responseOf s cell) s

/-! ### Turns -/

/-- Port M performs its next micro-step, if a command is in progress (R49). -/
def mainTurn (p : RowGroup) (s : State) : State :=
  match s.todo with
  | [] => s
  | m :: ms => runMicro m p (setTodo ms s)

/-- The environment changes output bits outside LED_MASK (R27). -/
def foreignWrite (v : Word) (s : State) : State :=
  { s with out := (s.out &&& s.cfg.ledMask) ||| (v &&& s.cfg.notLedMask) }

/-- The environment changes output bits inside LED_MASK (R139). -/
def ledWrite (v : Word) (s : State) : State :=
  { s with out := (s.out &&& s.cfg.notLedMask) ||| (v &&& s.cfg.ledMask) }

/-- One turn of the schedule on a reset block (R50, R115). A command on port T and a second reset have no meaning
(R55, R130). -/
def takeTurn (t : Turn) (s : State) : Host.Outcome State Fault Refusal :=
  match t with
  | .main p => .next (mainTurn p s)
  | .tick => .next (emitStep s)
  | .foreign v => .next (foreignWrite v s)
  | .ledWrite v => .next (ledWrite v s)
  | .portTCommand _ => .refused .commandOnPortT
  | .construct => .refused .secondReset

/-- The next `n` micro-steps with nothing between them. No tick can see the order of their RECOMPUTEs. -/
def finish : Nat → State → State
  | 0, s => s
  | n + 1, s => finish n (mainTurn 0 s)

/-- The command in progress runs to its end (R49, R50, R119): the turns of the schedule happen one by one until no
micro-step is left, and what is left of the schedule stays. When the schedule is empty nothing interrupts the rest. -/
def runTurns : List Turn → State → Host.Outcome State Fault Refusal
  | [], s => .next (setEnv [] (finish s.todo.length s))
  | t :: ts, s =>
    match s.todo with
    | [] => .next (setEnv (t :: ts) s)
    | _ :: _ =>
      match takeTurn t s with
      | .next s' => runTurns ts s'
      | .fault r => .fault r
      | .refused r => .refused r

/-- Port M issues a command of the micro-steps `ms` (R49): the block must have been reset (R32) and be quiescent
(R55); the command then runs to its end. A command without micro-steps (a soft-fail, R91) changes nothing. -/
def issue (ms : List Micro) (s : State) : Host.Outcome State Fault Refusal :=
  if s.constructed then
    match s.todo with
    | [] => runTurns s.env (setTodo ms s)
    | _ :: _ => .refused .overlappingCommand
  else .refused .notReset

/-- The micro-steps of a mutator (R51): one buffer write, then RECOMPUTE three times. -/
def mutatorMicros (b : BufferWrite) : List Micro := [.write b, .recompute, .recompute, .recompute]

/-! ### Reset -/

/-- The reset event (R130 to R132): every component at its reset value; nothing is emitted and `out` keeps what it
carried. -/
def construct (s : State) : State :=
  { s with
    px := blank, rw := packAll s.cfg.toCfgData blank, cur := 0, stale := noneStale, todo := [], constructed := true }

/-- The only step of a block that has not been reset (R32, R134): the reset event. Anything else is refused. -/
def unresetStep (s : State) : Host.Outcome State Fault Refusal :=
  match s.env with
  | .construct :: ts => .next (construct (setEnv ts s))
  | _ => .refused .notReset

/-- A reset block with the given configuration values and output register: refused when they are not of R7's types or
break K1 to K4 (R8). -/
def configure (d : CfgData) (o : Word) : Host.Outcome State Fault Refusal :=
  if h : d.Legal then .next (State.resetWith { toCfgData := d, legal := h } o)
  else .refused .illegalConfiguration

/-! ### Who goes next on a quiescent block, and fetching -/

/-- The turn another agent than port M takes now, with the rest of the schedule; none when port M goes. -/
def otherTurn (s : State) : Option (Turn × State) :=
  match s.env with
  | [] => none
  | .main _ :: _ => none
  | t :: ts => some (t, setEnv ts s)

/-- Port M's turn is used up (an empty schedule gives port M every turn). -/
def useMainTurn (s : State) : State :=
  match s.env with
  | .main _ :: ts => setEnv ts s
  | _ => s

/-- Port M's next command word, taken from what it has yet to issue (R49); none when it has nothing to issue. -/
def fetch (s : State) : Option (Command × State) :=
  match s.portM with
  | [] => none
  | C :: Cs => some (C, setPortM Cs s)

/-- What a reserved opcode does: nothing (R67). -/
def reservedNoOp (s : State) : Host.Outcome State Fault Refusal := .next s

/-- The state with `C` as the very next thing that happens: port M has it first, the turn is port M's, and the block
is reset and quiescent, as issuing a command needs. -/
def placeCommand (C : Command) (s : State) : State :=
  { s with portM := C :: s.portM, env := .main 0 :: s.env, todo := [], constructed := true }

end Sys2Proof.Machine
end

