-- ==== Sys2Proof/Machine/ImageOps.lean ====
section
/-! DEFINITION. The image commands CLEARIMAGE, SETPIXEL, TOGGLEPIXEL, GETPIXEL, SETIMAGE, SETCOLUMN (R92 to R97): the
micro-steps of each, and each as one command run to its end. -/

namespace Sys2Proof.Machine

/-- CLEARIMAGE's seven micro-steps (R92). -/
def clearImageMicros : List Micro := mutatorMicros (.image 0) ++ [.emit, .emit, .emit]

/-- SETPIXEL's micro-steps (R93); none on a soft-fail, which every `val` from 2 to 255 is. -/
def setPixelMicros (row col val : Nat) : List Micro :=
  match cellOf row col with
  | some i => if ValInRange val then mutatorMicros (.setCell i (val.testBit 0)) else []
  | none => []

/-- TOGGLEPIXEL's micro-steps (R94). -/
def togglePixelMicros (row col : Nat) : List Micro :=
  match cellOf row col with
  | some i => mutatorMicros (.toggleCell i)
  | none => []

/-- GETPIXEL's one micro-step (R95), out of range too. -/
def getPixelMicros (row col : Nat) : List Micro := [.respond (cellOf row col)]

/-- SETIMAGE's micro-steps (R96). -/
def setImageMicros (img : BitVec 25) : List Micro := mutatorMicros (.image img)

/-- SETCOLUMN's micro-steps (R97). -/
def setColumnMicros (col : Nat) (cells : BitVec 5) : List Micro :=
  match columnOf col with
  | some c => mutatorMicros (.column c cells)
  | none => []

/-- CLEARIMAGE (R92). -/
def execClearImage (s : State) : Host.Outcome State Fault Refusal := issue clearImageMicros s

/-- SETPIXEL row, col, val (R93). -/
def execSetPixel (row col val : Nat) (s : State) : Host.Outcome State Fault Refusal :=
  issue (setPixelMicros row col val) s

/-- TOGGLEPIXEL row, col (R94); `val` has no effect (R63). -/
def execTogglePixel (row col _val : Nat) (s : State) : Host.Outcome State Fault Refusal :=
  issue (togglePixelMicros row col) s

/-- GETPIXEL row, col (R95); `val` has no effect (R63). -/
def execGetPixel (row col _val : Nat) (s : State) : Host.Outcome State Fault Refusal :=
  issue (getPixelMicros row col) s

/-- SETIMAGE img (R96). -/
def execSetImage (img : BitVec 25) (s : State) : Host.Outcome State Fault Refusal := issue (setImageMicros img) s

/-- SETCOLUMN col, cells (R97). -/
def execSetColumn (col : Nat) (cells : BitVec 5) (s : State) : Host.Outcome State Fault Refusal :=
  issue (setColumnMicros col cells) s

end Sys2Proof.Machine
end

