-- ==== Sys2Proof/Machine/Refresh.lean ====
section
/-! DEFINITION. REFRESH on port M (R101). The tick of port T (R102) is `takeTurn .tick`, the same EMITSTEP. -/

namespace Sys2Proof.Machine

/-- REFRESH's one micro-step (R101). -/
def refreshMicros : List Micro := [.emit]

/-- REFRESH (R101). -/
def execRefresh (s : State) : Host.Outcome State Fault Refusal := issue refreshMicros s

end Sys2Proof.Machine
end

