-- ==== Sys2Proof/Machine/Dispatch.lean ====
section
/-! DEFINITION. One arm per command (R62). -/

namespace Sys2Proof.Machine

-- The meaning of a command: R92 to R97 and R101.
def exec (i : Instr) (s : State) : Host.Outcome State Fault Refusal :=
  match i with
  | .clearImage => Sys2Proof.Machine.execClearImage s
  | .setPixel row col val => Sys2Proof.Machine.execSetPixel row col val s
  | .togglePixel row col val => Sys2Proof.Machine.execTogglePixel row col val s
  | .getPixel row col val => Sys2Proof.Machine.execGetPixel row col val s
  | .setImage img => Sys2Proof.Machine.execSetImage img s
  | .setColumn col cells => Sys2Proof.Machine.execSetColumn col cells s
  | .refresh => Sys2Proof.Machine.execRefresh s

end Sys2Proof.Machine
end

