-- ==== Sys2Proof/Machine/Step.lean ====
section
/-! DEFINITION. One step of the machine (R49, R50, R115, R146). -/

namespace Sys2Proof.Machine

/-- Port M's turn on a quiescent block: it issues its next command word, which its instruction gives its meaning
(R49) and a reserved opcode none (R67). With nothing to issue the block holds its state (R124, R146). -/
def issueNext (s : State) : Host.Outcome State Fault Refusal :=
  match fetch s with
  | none => .next s
  | some (C, s') =>
    match decode C with
    | .ok i => exec i s'
    | .error (.reservedOpcode _) => reservedNoOp s'

/-- One step. Before reset, the reset event or a refusal (R32). With a command in progress, the command continues to
its end (R115). On a quiescent block, the turn the schedule gives: another agent's, or port M's. -/
def step (s : State) : Host.Outcome State Fault Refusal :=
  if s.constructed then
    match s.todo with
    | _ :: _ => runTurns s.env s
    | [] =>
      match otherTurn s with
      | some (t, s') => takeTurn t s'
      | none => issueNext (useMainTurn s)
  else unresetStep s

/-- `s` with the instruction word `w` of `nbits` bits as the command the very next step issues. -/
def State.withFetchWord (s : State) (nbits w : Nat) : State := placeCommand (BitVec.ofNat 32 (w % 2 ^ nbits)) s

end Sys2Proof.Machine
end

