-- ==== Sys2Proof/Machine/Flags.lean ====
section
/-! DEFINITION. The block has no flags (R28). What it has in their place are the abnormal conditions of R111, which
are recorded nowhere: this file says when a command meets one. -/

namespace Sys2Proof.Machine

/-- The command soft-fails: it is a mutator one of whose operands is out of range (R91, R111). GETPIXEL out of range
is not one: it responds the sentinel (R95). Decided from the operands alone (R105), whichever is looked at first (R116). -/
def softFails : Instr → Bool
  | .clearImage => false
  | .setPixel row col val => !(decide (InRange row col) && decide (ValInRange val))
  | .togglePixel row col _ => !decide (InRange row col)
  | .getPixel _ _ _ => false
  | .setImage _ => false
  | .setColumn col _ => !decide (ColInRange col)
  | .refresh => false

end Sys2Proof.Machine
end

