-- ==== Sys2Proof/Safety.lean ====
section
/-! DEFINITION. The terms claims use: a quiescent block, a lawful environment (R147), the invariant of the block (R30),
what a command does to the buffer and the rotation, and how emissions read in the output history. -/

namespace Sys2Proof.Machine

/-! ### The block and its environment -/

/-- The block has been reset and no port-M command is in progress (R16 "quiescent", R32). -/
abbrev State.Ready (s : State) : Prop := s.constructed = true ∧ s.todo = []

/-- Port M's turn. -/
def Turn.isMain : Turn → Bool
  | .main _ => true
  | _ => false

/-- A tick (R102). -/
def Turn.isTick : Turn → Bool
  | .tick => true
  | _ => false

/-- A change of the output bits outside LED_MASK by the environment (R27). -/
def Turn.isForeign : Turn → Bool
  | .foreign _ => true
  | _ => false

/-- A turn the model gives a meaning: not a command on port T, not a second reset (R147's two refused acts). -/
def Turn.lawful : Turn → Bool
  | .portTCommand _ => false
  | .construct => false
  | _ => true

/-- Every turn the schedule holds is lawful (R147). -/
abbrev State.Lawful (s : State) : Prop := ∀ t ∈ s.env, t.lawful = true

/-- No tick and no environment write falls between the next `n` micro-steps. -/
abbrev State.Uninterrupted (n : Nat) (s : State) : Prop := ∀ t ∈ s.env.take n, t.isMain = true

/-- Port M goes now, and `ts` is the schedule after its turn. -/
abbrev State.PortMGoes (s : State) (ts : List Turn) : Prop :=
  (s.env = [] ∧ ts = []) ∨ ∃ p, s.env = .main p :: ts

/-- How many ticks a stretch of the schedule holds. -/
def tickCount (ts : List Turn) : Nat := ts.countP Turn.isTick

/-- How many turns of port M a stretch of the schedule holds. -/
def mainCount (ts : List Turn) : Nat := ts.countP Turn.isMain

/-! ### Emissions -/

/-- The output events of refresh steps that emit the words `ws` in order (R77, R100). -/
def emissions (ledMask : Word) (ws : List Word) : List OutEvent := ws.flatMap fun w => [.clr ledMask, .set w]

/-- The rotation state `n` refresh steps after `c` (R103). -/
def rotate (c : RowGroup) (n : Nat) : RowGroup := ⟨(c.val + n) % 3, Nat.mod_lt _ (by decide)⟩

/-! ### The invariant -/

/-- The cache invariant INV (R30): a row-word that is not stale is the packing of the buffer. -/
abbrev State.Cache (s : State) : Prop :=
  ∀ g : RowGroup, s.stale[g] = false → s.rw[g] = pack s.cfg.toCfgData g s.px

/-- The row-words and the output register are W-bit values (R7, R23, R27). -/
abbrev State.Sized (s : State) : Prop := s.out < 2 ^ s.cfg.W ∧ ∀ g : RowGroup, s.rw[g] < 2 ^ s.cfg.W

/-- No row-word has a 1 outside LED_MASK (R8 K3). -/
abbrev State.Confined (s : State) : Prop := ∀ g : RowGroup, s.rw[g] &&& s.cfg.notLedMask = 0

/-- The number of stale row-words (R26). -/
def staleCount (stale : Vector Bool 3) : Nat := stale.toList.countP id

/-- The micro-steps still to do fit the number `n` of stale row-words: each RECOMPUTE has a stale word to take, every
other micro-step comes when none is stale, a buffer write makes three, and none is left at the end (R26, R51). -/
def todoFits : Nat → List Micro → Bool
  | n, [] => n == 0
  | n, .write _ :: ms => n == 0 && todoFits 3 ms
  | n, .recompute :: ms => n != 0 && todoFits (n - 1) ms
  | n, .emit :: ms => n == 0 && todoFits 0 ms
  | n, .respond _ :: ms => n == 0 && todoFits 0 ms

/-- The stale set agrees with the command in progress; in particular it is empty on a quiescent block (R26, R30). -/
abbrev State.Fits (s : State) : Prop := todoFits (staleCount s.stale) s.todo = true

/-- The invariant of the block. -/
abbrev State.Inv (s : State) : Prop := s.Cache ∧ s.Sized ∧ s.Confined ∧ s.Fits

/-! ### What a command does, whatever the schedule -/

/-- The buffer after a command (R92 to R97): the cells by their addresses. -/
def bufferAfter (i : Instr) (px : Pixels) : Pixels :=
  match i with
  | .clearImage => blank
  | .setPixel row col val => if h : InRange row col ∧ ValInRange val then px.set (idx row col) (val == 1) (idx_lt h.1) else px
  | .togglePixel row col _ => if h : InRange row col then px.set (idx row col) (!px[idx row col]'(idx_lt h)) (idx_lt h) else px
  | .getPixel _ _ _ => px
  | .setImage img => Vector.ofFn fun j => img.getLsbD j.val
  | .setColumn col cells =>
    if ColInRange col then
      Vector.ofFn fun j => if j.val % 5 + 1 = col then cells.getLsbD (j.val / 5) else px[j]
    else px
  | .refresh => px

/-- The command rewrites the buffer: a mutator (R16) that does not soft-fail. -/
def mutates (i : Instr) : Bool :=
  match i with
  | .clearImage | .setPixel .. | .togglePixel .. | .setImage _ | .setColumn .. => !softFails i
  | .getPixel .. | .refresh => false

/-- How many refresh steps the command itself performs (R25). -/
def ownEmits : Instr → Nat
  | .clearImage => 3
  | .refresh => 1
  | .setPixel .. | .togglePixel .. | .getPixel .. | .setImage _ | .setColumn .. => 0

/-- What a GETPIXEL issued now responds (R95). -/
def pixelResponse (s : State) (row col : Nat) : Byte :=
  if h : InRange row col then (if s.px[idx row col]'(idx_lt h) then 0x01 else 0x00) else s.cfg.pixelErr

/-- What a command adds to the response history (R68). -/
def commandResponses (i : Instr) (s : State) : List Byte :=
  match i with
  | .getPixel row col _ => [pixelResponse s row col]
  | .clearImage | .setPixel .. | .togglePixel .. | .setImage _ | .setColumn .. | .refresh => []

/-- A GETPIXEL of (row, col) issued now completes, under every value of its ignored field, and responds `b`. -/
def State.Reads (s : State) (row col : Nat) (b : Byte) : Prop :=
  ∀ val, ∃ t, exec (.getPixel row col val) s = .next t ∧ t.responses = s.responses ++ [b]

/-- The next refresh step, from port T or as a REFRESH of port M, with nothing between (R99: "in any mix"). -/
def refreshBy (viaTick : Bool) (s : State) : Host.Outcome State Fault Refusal :=
  if viaTick then step { s with env := .tick :: s.env } else exec .refresh { s with env := .main 0 :: s.env }

end Sys2Proof.Machine
end

