-- ==== Sys2Proof/Certificates/Slice0/Obligations.lean ====
section
/-! DEFINITION. The statements about the block, from the numbered rules of the spec. -/

open Sys2Proof Sys2Proof.Machine

/-! ### Encoding -/

/-- R61 to R65 (the layout is the spec's decision D3 to D5): words written out from the formats decode to the commands
they stand for. -/
def Obligations.WrittenOutWordsDecode : Prop :=
  decode (0b0001_0000_00000000_00000000_00000000#32) = .ok .clearImage ∧
  decode (0b0010_0000_00000010_00000100_00000001#32) = .ok (.setPixel 2 4 1) ∧
  decode (0b0011_0000_00000011_00000101_00000000#32) = .ok (.togglePixel 3 5 0) ∧
  decode (0b0100_0000_00000000_00000110_11111111#32) = .ok (.getPixel 0 6 255) ∧
  decode (0b0101_000_00001_00000_00000_00000_11111#32) = .ok (.setImage 0x010001F) ∧
  decode (0b0110_000000000000_00000011_000_10101#32) = .ok (.setColumn 3 0b10101) ∧
  decode (0b0111_0000_00000000_00000000_00000000#32) = .ok .refresh

/-- R62 to R65 (the layout is the spec's decision D3 to D5): a word `C` is the command of the opcode-table row with `C AND 0xF0000000 = op << 28`, its operands the
fields C[23:16], C[15:8], C[7:0], C[24:0], C[4:0]; any other word is rejected as a reserved opcode. -/
def Obligations.DecoderMatchesOpcodeTable : Prop :=
  ∀ C : Command,
    let row := C.toNat / 2 ^ 16 % 256
    let col := C.toNat / 2 ^ 8 % 256
    let val := C.toNat % 256
    (C &&& 0xF0000000 = 0x10000000 → decode C = .ok .clearImage) ∧
    (C &&& 0xF0000000 = 0x20000000 → decode C = .ok (.setPixel row col val)) ∧
    (C &&& 0xF0000000 = 0x30000000 → decode C = .ok (.togglePixel row col val)) ∧
    (C &&& 0xF0000000 = 0x40000000 → decode C = .ok (.getPixel row col val)) ∧
    (C &&& 0xF0000000 = 0x50000000 → decode C = .ok (.setImage (BitVec.ofNat 25 C.toNat))) ∧
    (C &&& 0xF0000000 = 0x60000000 → decode C = .ok (.setColumn col (BitVec.ofNat 5 C.toNat))) ∧
    (C &&& 0xF0000000 = 0x70000000 → decode C = .ok .refresh) ∧
    (C.toNat / 2 ^ 28 = 0 ∨ 8 ≤ C.toNat / 2 ^ 28 → decode C = .error (.reservedOpcode (BitVec.ofNat 4 (C.toNat / 2 ^ 28))))

/-- Decoding the encoding of a well-formed command gives the command back, at every operand value. -/
def Obligations.DecodeOfEncodeIsIdentity : Prop :=
  ∀ i : Instr, i.wf = true → decode (encode i) = .ok i

/-- A decoded command is well formed, and encoding it gives the word back with its unused bits 0. -/
def Obligations.EncodeOfDecodeKeepsNamedBits : Prop :=
  ∀ (C : Command) (i : Instr), decode C = .ok i → i.wf = true ∧ encode i = C &&& namedBits C

/-- R66 (the spec's decision D3): two words that agree on the bits their format names decode alike, and do the same when port M issues them;
the assembler writes unused bits 0; every word is one of the seven commands or a reserved opcode. -/
def Obligations.UnusedBitsTakeNoPart : Prop :=
  (∀ C C' : Command, (C ^^^ C') &&& namedBits C = 0 → decode C = decode C') ∧
  (∀ (C C' : Command) (Cs : List Command) (s : State), (C ^^^ C') &&& namedBits C = 0 →
    issueNext { s with portM := C :: Cs } = issueNext { s with portM := C' :: Cs }) ∧
  (∀ i : Instr, encode i &&& ~~~namedBits (encode i) = 0) ∧
  (∀ C : Command, (∃ i, decode C = .ok i) ∨
    (decode C = .error (.reservedOpcode (opField C)) ∧ (opField C = 0x0 ∨ 0x8 ≤ opField C)))

/-- R79, R81 (the spec's decision D23): each line of the assembler's table, with its operands in decimal, gives the word
of R61 with every operand in its own field as written (`val` 0 for TOGGLEPIXEL and GETPIXEL), where the operands are 0..255,
and no word otherwise; character n of the image string is bit n of `img`, with '/' after every fifth or without, and
character j of the column string is bit j of `cells`; TICK gives no word; what ';' starts is not read. Every word a line or
a text gives decodes to the command the line names. That blanks at the ends are not read, and that an operand above 255
has no word, is the model's reading (log entry 19). -/
def Obligations.AssembledWordsDecode : Prop :=
  let decimalText (n : Nat) : List Char := Nat.toDigits 10 n
  let comma : List Char := ", ".toList
  let cell (b : Bool) : Char := if b then '1' else '0'
  let imageRow (img : BitVec 25) (r : Nat) : List Char := List.ofFn fun c : Fin 5 => cell (img.getLsbD (5 * r + c))
  assembleText "CLEARIMAGE".toList = some 0x10000000#32 ∧
  (∀ row col val : Nat,
    assembleText ("SETPIXEL ".toList ++ decimalText row ++ comma ++ decimalText col ++ comma ++ decimalText val) =
      if row < 256 ∧ col < 256 ∧ val < 256 then
        some (BitVec.ofNat 32 (0x20000000 + row * 2 ^ 16 + col * 2 ^ 8 + val)) else none) ∧
  (∀ row col : Nat,
    assembleText ("TOGGLEPIXEL ".toList ++ decimalText row ++ comma ++ decimalText col) =
      if row < 256 ∧ col < 256 then some (BitVec.ofNat 32 (0x30000000 + row * 2 ^ 16 + col * 2 ^ 8)) else none) ∧
  (∀ row col : Nat,
    assembleText ("GETPIXEL ".toList ++ decimalText row ++ comma ++ decimalText col) =
      if row < 256 ∧ col < 256 then some (BitVec.ofNat 32 (0x40000000 + row * 2 ^ 16 + col * 2 ^ 8)) else none) ∧
  (∀ img : BitVec 25,
    assembleText ("SETIMAGE ".toList ++ List.ofFn fun n : Fin 25 => cell (img.getLsbD n)) =
      some (BitVec.ofNat 32 (0x50000000 + img.toNat)) ∧
    assembleText ("SETIMAGE ".toList ++ imageRow img 0 ++ '/' :: imageRow img 1 ++ '/' :: imageRow img 2 ++
        '/' :: imageRow img 3 ++ '/' :: imageRow img 4) =
      some (BitVec.ofNat 32 (0x50000000 + img.toNat))) ∧
  (∀ (col : Nat) (cells : BitVec 5),
    assembleText ("SETCOLUMN ".toList ++ decimalText col ++ comma ++ List.ofFn fun j : Fin 5 => cell (cells.getLsbD j)) =
      if col < 256 then some (BitVec.ofNat 32 (0x60000000 + col * 2 ^ 8 + cells.toNat)) else none) ∧
  assembleText "REFRESH".toList = some 0x70000000#32 ∧
  assembleText "TICK".toList = none ∧
  (∀ text comment : List Char, ';' ∉ text → assembleText (text ++ ';' :: comment) = assembleText text) ∧
  (∀ (text : List Char) (a b : Nat),
    assembleText (List.replicate a ' ' ++ text ++ List.replicate b ' ') = assembleText text) ∧
  (∀ (line : AsmLine) (C : Command), assembleWord line = some C →
    ∃ i, assemble line = some i ∧ decode C = .ok i) ∧
  (∀ (text : List Char) (C : Command), assembleText text = some C →
    ∃ line i, parseLine text = some line ∧ assemble line = some i ∧ decode C = .ok i)

/-! ### The step -/

/-- When port M goes and its next word decodes to `i`, a step is `exec i` at the state with the word and the turn used
up. -/
def Obligations.StepRunsDecodedCommand : Prop :=
  ∀ (s : State) (C : Command) (Cs : List Command) (ts : List Turn) (i : Instr),
    s.Ready → s.PortMGoes ts → s.portM = C :: Cs → decode C = .ok i →
      step s = exec i { s with portM := Cs, env := ts }

/-- A word placed by `withFetchWord` is what the very next step runs, on the state it was placed in. -/
def Obligations.PlacedWordRunsNext : Prop :=
  ∀ (s : State) (w : Nat) (i : Instr), s.Ready → decodeTableWord 32 w = some i →
    step (s.withFetchWord 32 w) = exec i s

/-- R67 (the spec's decision D7, log entry 16): a reserved opcode is accepted and does nothing: the word and the turn of port M are used up, and every
component of the block, the histories included, stays. -/
def Obligations.ReservedOpcodesDoNothing : Prop :=
  ∀ (s : State) (C : Command) (Cs : List Command) (ts : List Turn),
    (opField C = 0x0 ∨ 0x8 ≤ opField C) → s.Ready → s.PortMGoes ts → s.portM = C :: Cs →
      step s = .next { s with portM := Cs, env := ts }

/-- R124, R146: with nothing to issue, the block holds its state (that a step then uses up the turn is the model's
choice, log entry 7). -/
def Obligations.IdleBlockHolds : Prop :=
  ∀ (s : State) (ts : List Turn), s.Ready → s.PortMGoes ts → s.portM = [] → step s = .next { s with env := ts }

/-- R102: one tick performs one EMITSTEP (R100: clear LED_MASK, set the row-word at the cursor as it stands, advance the
cursor), on a quiescent block as a step, and between two micro-steps of a command as the turn the command's run takes. -/
def Obligations.TickIsOneRefreshStep : Prop :=
  (∀ (s : State) (ts : List Turn), s.Ready → s.env = .tick :: ts →
    step s = .next { s with
      env := ts, cur := rotate s.cur 1,
      out := (s.out &&& s.cfg.notLedMask) ||| s.rw[s.cur],
      events := s.events ++ [.clr s.cfg.ledMask, .set s.rw[s.cur]] }) ∧
  (∀ (s : State) (ts : List Turn), s.todo ≠ [] →
    runTurns (.tick :: ts) s = runTurns ts { s with
      cur := rotate s.cur 1,
      out := (s.out &&& s.cfg.notLedMask) ||| s.rw[s.cur],
      events := s.events ++ [.clr s.cfg.ledMask, .set s.rw[s.cur]] })

/-- R115: a command in progress continues to its end, under any lawful schedule (in one step: the model's choice, log
entry 6). -/
def Obligations.CommandInProgressContinues : Prop :=
  ∀ s : State, s.constructed = true → s.todo ≠ [] → s.Lawful →
    ∃ t, step s = .next t ∧ t.Ready ∧ t.cfg = s.cfg ∧ t.portM = s.portM

/-- R27 (the spec's decision D8, log entry 10): a write of the environment outside LED_MASK sets those bits of `out` and changes nothing else. -/
def Obligations.ForeignWriteKeepsLedBits : Prop :=
  ∀ (s : State) (v : Word) (ts : List Turn), s.Ready → s.env = .foreign v :: ts →
    ∃ o, step s = .next { s with env := ts, out := o } ∧
      o &&& s.cfg.ledMask = s.out &&& s.cfg.ledMask ∧ o &&& s.cfg.notLedMask = v &&& s.cfg.notLedMask

/-- R139 (the second of the two readings it allows; the model's choice, log entry 10): a write of the environment inside LED_MASK stays until the next refresh step, which repairs it. -/
def Obligations.NextRefreshRepairsLedWrite : Prop :=
  ∀ (s : State) (v : Word) (ts : List Turn), s.Ready → s.Sized → s.Confined → s.env = .ledWrite v :: .tick :: ts →
    ∃ t u, step s = .next t ∧ t.out &&& s.cfg.ledMask = v &&& s.cfg.ledMask ∧
      t.out &&& s.cfg.notLedMask = s.out &&& s.cfg.notLedMask ∧
      step t = .next u ∧ u.out &&& s.cfg.ledMask = s.rw[s.cur] ∧
      u.out &&& s.cfg.notLedMask = s.out &&& s.cfg.notLedMask

/-! ### Reset and what is refused -/

/-- R31, R131: after reset the buffer is blank, the row-words are the packing of it, which is the base masks, the cursor
is 0 and nothing is stale. The row-words and the cursor are the spec's decisions D10 and D11 (log entry 5). -/
def Obligations.ResetGivesResetValues : Prop :=
  (∀ i : CellIdx, State.reset.px[i] = false) ∧
  (∀ g : RowGroup, State.reset.rw[g] = State.reset.cfg.baseAt g ∧
    State.reset.rw[g] = pack State.reset.cfg.toCfgData g State.reset.px) ∧
  State.reset.cur = 0 ∧ (∀ g : RowGroup, State.reset.stale[g] = false)

/-- R130 to R132 (the spec's decisions D12 and D22, log entries 5 and 14): the reset event puts every component at its reset value, whatever it was, emits nothing and leaves
`out` alone; the first refresh step after it emits BASE[0]. -/
def Obligations.ConstructionResetsAndEmitsNothing : Prop :=
  ∀ (s : State) (ts : List Turn), s.constructed = false → s.env = .construct :: ts →
    ∃ t, step s = .next t ∧
      t = { s with
        env := ts, px := Vector.replicate 25 false, rw := s.cfg.base, cur := 0,
        stale := Vector.replicate 3 false, todo := [], constructed := true } ∧
      ∀ viaTick, ∃ u, refreshBy viaTick t = .next u ∧
        u.events = s.events ++ [.clr s.cfg.ledMask, .set (s.cfg.baseAt 0)]

/-- The block right after reset meets the invariant, and is quiescent. -/
def Obligations.ResetMeetsInvariant : Prop := State.reset.Inv ∧ State.reset.Ready

/-- R32, R134 (the spec's decision D22, log entry 13): a block that has not been reset takes no command, and no step but the reset event. -/
def Obligations.UnresetBlockIsRefused : Prop :=
  ∀ s : State, s.constructed = false →
    (∀ i, exec i s = .refused .notReset) ∧
    ((∀ ts, s.env ≠ .construct :: ts) → step s = .refused .notReset)

/-- R55, R130, R147: a command on port T, a second reset, and a port-M command before the previous one has completed
are refused (the spec's decisions D15 and D22, log entry 13). -/
def Obligations.MisuseIsRefused : Prop :=
  (∀ (s : State) (C : Command) (ts : List Turn), s.constructed = true → s.env = .portTCommand C :: ts →
    step s = .refused .commandOnPortT) ∧
  (∀ (s : State) (ts : List Turn), s.constructed = true → s.env = .construct :: ts →
    step s = .refused .secondReset) ∧
  (∀ (s : State) (i : Instr), s.constructed = true → s.todo ≠ [] → exec i s = .refused .overlappingCommand)

/-- R8 (the spec's decision D9 for K2 and K3, D6 for K4; log entry 3): a configuration that is not of
R7's types or breaks one of K1 to K4 is refused, every other, of whatever width W, is taken as it is. -/
def Obligations.IllegalConfigurationsAreRefused : Prop :=
  ∀ (d : CfgData) (o : Word),
    (¬ (d.Sized ∧ d.K1 ∧ d.K2 ∧ d.K3 ∧ d.K4) → configure d o = .refused .illegalConfiguration) ∧
    ((d.Sized ∧ d.K1 ∧ d.K2 ∧ d.K3 ∧ d.K4) →
      ∃ s, configure d o = .next s ∧ s.cfg.toCfgData = d ∧ s.out = o % 2 ^ d.W)

/-! ### Packing -/

/-- R72: each occupied slot's bit of the row-word is the base mask's bit XOR the slot's cell, every other bit is the
base mask's, for every legal configuration. -/
def Obligations.PackXorsEachCellIntoItsBit : Prop :=
  ∀ (c : Cfg) (g : RowGroup) (px : Pixels),
    (∀ (k : Slot) (i : CellIdx), c.cellAt g k = some i →
      (pack c.toCfgData g px).testBit (c.posAt g k) = ((c.baseAt g).testBit (c.posAt g k) ^^ px[i])) ∧
    (∀ b : Nat, (∀ k : Slot, c.cellAt g k ≠ none → c.posAt g k ≠ b) →
      (pack c.toCfgData g px).testBit b = (c.baseAt g).testBit b)

/-- R73 "Blank" and "Single pixel": the blank buffer packs to the base masks, and one set cell changes exactly the bit
the wiring table gives it. -/
def Obligations.SinglePixelFlipsOneBit : Prop :=
  ∀ (c : Cfg) (g : RowGroup),
    pack c.toCfgData g blank = c.baseAt g ∧
    ∀ (g0 : RowGroup) (k0 : Slot) (i : CellIdx), c.cellAt g0 k0 = some i →
      pack c.toCfgData g (blank.set i.val true) =
        if g = g0 then c.baseAt g0 ^^^ ((1 : Word) <<< c.posAt g0 k0) else c.baseAt g

/-- R73 "Linearity". -/
def Obligations.PackIsLinear : Prop :=
  ∀ (c : Cfg) (g : RowGroup) (a b : Pixels),
    pack c.toCfgData g (Vector.ofFn fun i => a[i] ^^ b[i]) ^^^ c.baseAt g =
      (pack c.toCfgData g a ^^^ c.baseAt g) ^^^ (pack c.toCfgData g b ^^^ c.baseAt g)

/-- R73 "Injectivity": the three row-words determine the buffer, cell by cell. -/
def Obligations.PackIsInjective : Prop :=
  ∀ c : Cfg,
    (∀ (px : Pixels) (g : RowGroup) (k : Slot) (i : CellIdx), c.cellAt g k = some i →
      px[i] = (pack c.toCfgData g px ^^^ c.baseAt g).testBit (c.posAt g k)) ∧
    (∀ a b : Pixels, packAll c.toCfgData a = packAll c.toCfgData b → a = b)

/-- R73 "Confinement", and R70: a row-word is a W-bit value. -/
def Obligations.PackStaysInsideLedMask : Prop :=
  ∀ (c : Cfg) (g : RowGroup) (px : Pixels), pack c.toCfgData g px &&& c.notLedMask = 0 ∧ pack c.toCfgData g px < 2 ^ c.W

/-! ### The commands, with no tick inside -/

/-- R93 (`val` 2 to 255 out of range is the spec's decision D19): SETPIXEL in range writes its one cell, packs the three row-words of the new buffer and changes nothing else;
out of range in row, col or val it changes nothing at all. -/
def Obligations.SetPixelWritesItsCell : Prop :=
  ∀ (s : State) (row col val : Nat), s.Ready → s.Uninterrupted 4 →
    (∀ h : InRange row col ∧ ValInRange val,
      let px' := s.px.set (idx row col) (val == 1) (idx_lt h.1)
      exec (.setPixel row col val) s =
        .next { s with
          px := px', rw := packAll s.cfg.toCfgData px', stale := Vector.replicate 3 false, env := s.env.drop 4 }) ∧
    (¬ (InRange row col ∧ ValInRange val) → exec (.setPixel row col val) s = .next s)

/-- R94: TOGGLEPIXEL in range complements its one cell, packs the new buffer and changes nothing else; out of range it
changes nothing; its `val` has no effect (the spec's decision D20). -/
def Obligations.TogglePixelComplementsItsCell : Prop :=
  ∀ (s : State) (row col val : Nat), s.Ready → s.Uninterrupted 4 →
    (∀ h : InRange row col,
      let px' := s.px.set (idx row col) (!s.px[idx row col]'(idx_lt h)) (idx_lt h)
      exec (.togglePixel row col val) s =
        .next { s with
          px := px', rw := packAll s.cfg.toCfgData px', stale := Vector.replicate 3 false, env := s.env.drop 4 }) ∧
    (¬ InRange row col → exec (.togglePixel row col val) s = .next s)

/-- R95: GETPIXEL responds the cell in range, the sentinel out of range, which is neither 0x00 nor 0x01, and changes no
state of the block; its `val` has no effect. -/
def Obligations.GetPixelRespondsCellOrSentinel : Prop :=
  ∀ (s : State) (row col val : Nat), s.Ready → s.Uninterrupted 1 →
    (∀ h : InRange row col,
      exec (.getPixel row col val) s =
        .next { s with
          responses := s.responses ++ [if s.px[idx row col]'(idx_lt h) then 0x01 else 0x00], env := s.env.drop 1 }) ∧
    (¬ InRange row col →
      exec (.getPixel row col val) s =
        .next { s with responses := s.responses ++ [s.cfg.pixelErr], env := s.env.drop 1 }) ∧
    s.cfg.pixelErr ≠ 0x00 ∧ s.cfg.pixelErr ≠ 0x01

/-- R96: SETIMAGE puts bit i of `img` in cell i, packs the new buffer and changes nothing else. -/
def Obligations.SetImageReplacesBuffer : Prop :=
  ∀ (s : State) (img : BitVec 25), s.Ready → s.Uninterrupted 4 →
    ∃ px' : Pixels, (∀ i : CellIdx, px'[i] = img.getLsbD i.val) ∧
      exec (.setImage img) s =
        .next { s with
          px := px', rw := packAll s.cfg.toCfgData px', stale := Vector.replicate 3 false, env := s.env.drop 4 }

/-- R97: SETCOLUMN in range puts bit r-1 of `cells` in row r of its column, leaves the other columns, packs the new
buffer and changes nothing else; out of range it changes nothing (the spec's decision D18). -/
def Obligations.SetColumnReplacesItsColumn : Prop :=
  ∀ (s : State) (col : Nat) (cells : BitVec 5), s.Ready → s.Uninterrupted 4 →
    (ColInRange col →
      ∃ px' : Pixels,
        (∀ (r c : Nat) (h : InRange r c),
          px'[idx r c]'(idx_lt h) = if c = col then cells.getLsbD (r - 1) else s.px[idx r c]'(idx_lt h)) ∧
        exec (.setColumn col cells) s =
          .next { s with
            px := px', rw := packAll s.cfg.toCfgData px', stale := Vector.replicate 3 false, env := s.env.drop 4 }) ∧
    (¬ ColInRange col → exec (.setColumn col cells) s = .next s)

/-- R92: CLEARIMAGE blanks the buffer, which packs to the base masks, then emits the three row-words from the cursor on;
the cursor ends where it was, or as many places on as ticks fell inside. That the emission is three EMITSTEPs is the spec's
decision D13 (log entry 11). -/
def Obligations.ClearImageBlanksAndEmitsThreeRows : Prop :=
  (∀ s : State, s.Ready → s.Uninterrupted 7 →
    exec .clearImage s =
      .next { s with
        px := Vector.replicate 25 false, rw := s.cfg.base, stale := Vector.replicate 3 false,
        out := (s.out &&& s.cfg.notLedMask) ||| s.cfg.baseAt (rotate s.cur 2),
        events := s.events ++
          [.clr s.cfg.ledMask, .set (s.cfg.baseAt s.cur),
           .clr s.cfg.ledMask, .set (s.cfg.baseAt (rotate s.cur 1)),
           .clr s.cfg.ledMask, .set (s.cfg.baseAt (rotate s.cur 2))],
        env := s.env.drop 7 }) ∧
  (∀ s t : State, exec .clearImage s = .next t →
    t.px = Vector.replicate 25 false ∧ t.rw = s.cfg.base ∧
      ∃ used, s.env = used ++ t.env ∧ t.cur = rotate s.cur (tickCount used))

/-- R101: REFRESH is one EMITSTEP: clear LED_MASK, set the row-word at the cursor as it stands, advance the cursor. -/
def Obligations.RefreshEmitsRowAtCursor : Prop :=
  ∀ s : State, s.Ready → s.Uninterrupted 1 →
    exec .refresh s =
      .next { s with
        cur := rotate s.cur 1,
        out := (s.out &&& s.cfg.notLedMask) ||| s.rw[s.cur],
        events := s.events ++ [.clr s.cfg.ledMask, .set s.rw[s.cur]],
        env := s.env.drop 1 }

/-- R91 and the else-branches of R93 to R95 and R97 (R111's table): a command whose range predicate fails performs no
micro-step and changes nothing, whatever the schedule holds, and whichever predicates fail (R116). GETPIXEL apart, whose
one micro-step responds the sentinel. That a `val` of 2 to 255 and a bad column of SETCOLUMN are soft-fails are the spec's
decisions D19 and D18; that not even the schedule is used up is the model's reading, log entry 18. -/
def Obligations.SoftFailedCommandsChangeNothing : Prop :=
  ∀ (s : State) (row col val : Nat), s.Ready →
    (¬ ((1 ≤ row ∧ row ≤ 5) ∧ (1 ≤ col ∧ col ≤ 5) ∧ (val = 0 ∨ val = 1)) → exec (.setPixel row col val) s = .next s) ∧
    (¬ ((1 ≤ row ∧ row ≤ 5) ∧ (1 ≤ col ∧ col ≤ 5)) →
      exec (.togglePixel row col val) s = .next s ∧
      ∀ (p : RowGroup) (ts : List Turn), s.env = .main p :: ts →
        exec (.getPixel row col val) s = .next { s with env := ts, responses := s.responses ++ [s.cfg.pixelErr] }) ∧
    (¬ (1 ≤ col ∧ col ≤ 5) → ∀ cells, exec (.setColumn col cells) s = .next s)

/-- R94 corner case (c): TOGGLEPIXEL twice restores the buffer and the row-words exactly. -/
def Obligations.TogglePixelTwiceRestores : Prop :=
  ∀ (s t u : State) (row col v w : Nat), s.Inv →
    exec (.togglePixel row col v) s = .next t → exec (.togglePixel row col w) t = .next u →
      u.px = s.px ∧ u.rw = s.rw

/-- R94 corner case (d): TOGGLEPIXEL in range changes exactly one bit of exactly one row-word. -/
def Obligations.TogglePixelFlipsOneRowWordBit : Prop :=
  ∀ (s t : State) (row col v : Nat), s.Inv → InRange row col → exec (.togglePixel row col v) s = .next t →
    ∃ (g : RowGroup) (b : Nat), b < s.cfg.W ∧ t.rw[g] = s.rw[g] ^^^ ((1 : Word) <<< b) ∧
      ∀ g' : RowGroup, g' ≠ g → t.rw[g'] = s.rw[g']

/-- R46: SETPIXEL, SETIMAGE and SETCOLUMN issued twice leave the buffer and the row-words the first left. -/
def Obligations.StoresAreIdempotent : Prop :=
  ∀ (s t u : State) (i : Instr), s.Inv →
    ((∃ row col val, i = .setPixel row col val) ∨ (∃ img, i = .setImage img) ∨ (∃ col cells, i = .setColumn col cells)) →
    exec i s = .next t → exec i t = .next u → u.px = t.px ∧ u.rw = t.rw ∧ u.stale = t.stale

/-! ### The commands under any schedule -/

/-- R110, R119: on a reset, quiescent block whose port M goes under a lawful schedule, every 32-bit word completes;
and no step of any state faults. -/
def Obligations.EveryCommandWordCompletes : Prop :=
  (∀ (s : State) (C : Command) (Cs : List Command) (ts : List Turn),
    s.Ready → s.Lawful → s.PortMGoes ts → s.portM = C :: Cs → ∃ t, step s = .next t ∧ t.Ready ∧ t.portM = Cs) ∧
  (∀ (s : State) (r : Fault), step s ≠ .fault r)

/-- R119: every command completes after at most seven micro-steps, whatever ticks and environment writes fall between
them. -/
def Obligations.CommandsAreBounded : Prop :=
  ∀ (s : State) (i : Instr), s.Ready → s.Lawful →
    ∃ t used, exec i s = .next t ∧ t.Ready ∧ s.env = used ++ t.env ∧ mainCount used ≤ 7

/-- R54: the buffer and the row-words a mutator leaves are the same whatever ticks fall inside it. -/
def Obligations.TicksDoNotDisturbMutators : Prop :=
  ∀ (s t : State) (i : Instr), mutates i = true → exec i s = .next t →
    t.px = bufferAfter i s.px ∧ t.rw = packAll s.cfg.toCfgData (bufferAfter i s.px) ∧
      t.stale = Vector.replicate 3 false

/-- The frame of every command under any schedule: the configuration, port M's words and the reset mark stay; a command
that is no mutator, or soft-fails, leaves buffer, row-words and stale set; only GETPIXEL adds to the responses. -/
def Obligations.CommandFrameUnderAnySchedule : Prop :=
  ∀ (s t : State) (i : Instr), exec i s = .next t →
    t.cfg = s.cfg ∧ t.portM = s.portM ∧ t.constructed = s.constructed ∧ t.todo = s.todo ∧
    (∃ used, s.env = used ++ t.env) ∧
    (mutates i = false → t.px = s.px ∧ t.rw = s.rw ∧ t.stale = s.stale) ∧
    t.responses = s.responses ++ commandResponses i s

/-- R93 to R97: a store leaves every cell outside the ones it addresses as it was, under any schedule. -/
def Obligations.StoresLeaveOtherCells : Prop :=
  (∀ (s t : State) (row col val : Nat), exec (.setPixel row col val) s = .next t →
    ∀ j : CellIdx, cellOf row col ≠ some j → t.px[j] = s.px[j]) ∧
  (∀ (s t : State) (row col val : Nat), exec (.togglePixel row col val) s = .next t →
    ∀ j : CellIdx, cellOf row col ≠ some j → t.px[j] = s.px[j]) ∧
  (∀ (s t : State) (col : Nat) (cells : BitVec 5), exec (.setColumn col cells) s = .next t →
    ∀ j : CellIdx, (∀ r, cellOf r col ≠ some j) → t.px[j] = s.px[j]) ∧
  (∀ (s t : State) (row col val : Nat), exec (.getPixel row col val) s = .next t → t.px = s.px) ∧
  (∀ s t : State, exec .refresh s = .next t → t.px = s.px)

/-- R25, R104: a command moves the cursor only by refresh steps, its own (three of CLEARIMAGE, one of REFRESH) and the
ticks that fall inside it; each of them is one Clr and one Set of the output history, and nothing else emits. -/
def Obligations.OnlyRefreshStepsMoveTheCursor : Prop :=
  ∀ (s t : State) (i : Instr), exec i s = .next t →
    ∃ (used : List Turn) (ws : List Word), s.env = used ++ t.env ∧
      ws.length = ownEmits i + tickCount used ∧
      t.cur = rotate s.cur ws.length ∧ t.events = s.events ++ emissions s.cfg.ledMask ws

/-- R53: what the ticks inside a mutator emit is, for each, the whole old or the whole new row-word of the row-group
the rotation stands at; never a mix. -/
def Obligations.TicksInsideMutatorsSeeOldOrNewWords : Prop :=
  ∀ (s t : State) (i : Instr), s.Inv → mutates i = true → exec i s = .next t →
    ∃ ws : List Word, t.events = s.events ++ emissions s.cfg.ledMask ws ∧
      ∀ (j : Nat) (h : j < ws.length),
        ws[j] = pack s.cfg.toCfgData (rotate s.cur j) s.px ∨ ws[j] = pack s.cfg.toCfgData (rotate s.cur j) t.px

/-- R51: the order of the three RECOMPUTEs is open (the spec's decision D16, log entry 8). With ticks after the buffer write and after each of the first two
RECOMPUTEs, which take the row-groups `g1` and `g2`, a tick emits the new word exactly when its row-group was already
taken. -/
def Obligations.RecomputeOrderIsOpen : Prop :=
  ∀ (s : State) (img : BitVec 25) (g1 g2 p : RowGroup) (ts : List Turn), s.Ready → g1 ≠ g2 →
    s.env = .main p :: .tick :: .main g1 :: .tick :: .main g2 :: .tick :: ts →
    (∀ u ∈ ts.take 1, u.isMain = true) →
    let new := fun g => pack s.cfg.toCfgData g (bufferAfter (.setImage img) s.px)
    ∃ t, exec (.setImage img) s = .next t ∧
      t.events = s.events ++ emissions s.cfg.ledMask
        [s.rw[s.cur],
         if rotate s.cur 1 = g1 then new (rotate s.cur 1) else s.rw[rotate s.cur 1],
         if rotate s.cur 2 = g1 ∨ rotate s.cur 2 = g2 then new (rotate s.cur 2) else s.rw[rotate s.cur 2]] ∧
      t.cur = s.cur ∧ ∀ g : RowGroup, t.rw[g] = new g

/-- R98: read after write, with or without ticks in between: what GETPIXEL responds after each store. -/
def Obligations.ReadAfterWrite : Prop :=
  ∀ (s t : State) (i : Instr) (r c : Nat), s.Lawful → InRange r c → exec i s = .next t →
    (∀ row col val, i = .setPixel row col val → InRange row col → ValInRange val →
      t.Reads r c (if r = row ∧ c = col then BitVec.ofNat 8 val else pixelResponse s r c)) ∧
    (∀ v, i = .togglePixel r c v → t.Reads r c (0x01 ^^^ pixelResponse s r c)) ∧
    (∀ img, i = .setImage img → t.Reads r c (if img.getLsbD (idx r c) then 0x01 else 0x00)) ∧
    (∀ col cells, i = .setColumn col cells → ColInRange col →
      t.Reads r c (if c = col then (if cells.getLsbD (r - 1) then 0x01 else 0x00) else pixelResponse s r c)) ∧
    (i = .clearImage → t.Reads r c 0x00) ∧
    (softFails i = true → t.Reads r c (pixelResponse s r c))

/-! ### The rotation and the output -/

/-- R78: a refresh step emits the row-word at the cursor; after it the LED bits of `out` are that word and the others are
what they were. On a quiescent block, from either port; and as a turn inside a command, a tick or an EMITSTEP of the
command itself. -/
def Obligations.RefreshShowsTheRowWord : Prop :=
  ∀ s : State, s.Sized → s.Confined →
    (s.Ready → ∀ viaTick, ∃ t, refreshBy viaTick s = .next t ∧
      t.events = s.events ++ emissions s.cfg.ledMask [s.rw[s.cur]] ∧
      t.out &&& s.cfg.ledMask = s.rw[s.cur] ∧ t.out &&& s.cfg.notLedMask = s.out &&& s.cfg.notLedMask) ∧
    (∀ (u : Turn) (ms : List Micro), (u = .tick ∨ (u.isMain = true ∧ s.todo = .emit :: ms)) →
      ∃ t, takeTurn u s = .next t ∧
        t.events = s.events ++ emissions s.cfg.ledMask [s.rw[s.cur]] ∧
        t.out &&& s.cfg.ledMask = s.rw[s.cur] ∧ t.out &&& s.cfg.notLedMask = s.out &&& s.cfg.notLedMask)

/-- R99: on a quiescent block that meets the invariant, the next three refresh steps, REFRESH or tick in any mix, emit the
packing of the one image for each row-group once, from the cursor on. -/
def Obligations.ThreeRefreshStepsShowOneFrame : Prop :=
  ∀ (s : State) (v1 v2 v3 : Bool), s.Ready → s.Inv →
    ∃ t1 t2 t3, refreshBy v1 s = .next t1 ∧ refreshBy v2 t1 = .next t2 ∧ refreshBy v3 t2 = .next t3 ∧
      t3.events = s.events ++ emissions s.cfg.ledMask
        [pack s.cfg.toCfgData s.cur s.px, pack s.cfg.toCfgData (rotate s.cur 1) s.px,
         pack s.cfg.toCfgData (rotate s.cur 2) s.px] ∧
      t3.cur = s.cur ∧ t3.px = s.px

/-- R103: over any run of a reset block, each refresh step moves the cursor by one: the cursor is where the number of
emissions since puts it, and the output history grows by whole emissions only. -/
def Obligations.RotationCountsEmissions : Prop :=
  ∀ (n : Nat) (s t : State), s.constructed = true → core.run n s = .next t →
    ∃ ws : List Word, t.events = s.events ++ emissions s.cfg.ledMask ws ∧ t.cur = rotate s.cur ws.length

/-- R27: no step of the block changes an output bit outside LED_MASK: unless the schedule holds a foreign write, those
bits stay. -/
def Obligations.ForeignBitsSurviveEveryStep : Prop :=
  ∀ s t : State, s.Inv → (∀ u ∈ s.env, u.isForeign = false) → step s = .next t →
    t.out &&& s.cfg.notLedMask = s.out &&& s.cfg.notLedMask

/-! ### The invariant -/

/-- R30: INV, "for every g not in stale, rw[g] = pack(g, px)", holds after reset, every turn (a micro-step of port M, a
tick, a write of the environment) preserves it, and on a quiescent block that meets the invariant nothing is stale, so all
three row-words are packings of the buffer. -/
def Obligations.CacheInvariantIsKept : Prop :=
  (∀ g : RowGroup, State.reset.stale[g] = false →
    State.reset.rw[g] = pack State.reset.cfg.toCfgData g State.reset.px) ∧
  (∀ (s t : State) (u : Turn),
    (∀ g : RowGroup, s.stale[g] = false → s.rw[g] = pack s.cfg.toCfgData g s.px) → takeTurn u s = .next t →
      ∀ g : RowGroup, t.stale[g] = false → t.rw[g] = pack t.cfg.toCfgData g t.px) ∧
  (∀ s : State, s.Inv → s.todo = [] →
    ∀ g : RowGroup, s.stale[g] = false ∧ s.rw[g] = pack s.cfg.toCfgData g s.px)

/-- Every turn preserves the whole invariant of the block (the cache, the confinement to LED_MASK, and the stale set's
agreement with the command in progress). -/
def Obligations.EveryTurnKeepsTheInvariant : Prop :=
  ∀ (s t : State) (u : Turn), s.Inv → takeTurn u s = .next t → t.Inv

/-- Every step preserves the invariant, from every state that meets it. -/
def Obligations.EveryStepKeepsTheInvariant : Prop :=
  ∀ s t : State, s.Inv → step s = .next t → t.Inv

/-- R52: once a command has completed, every row-word is the packing of the buffer: no stale mapping outlives it. -/
def Obligations.CompletedCommandsLeaveNothingStale : Prop :=
  ∀ (s t : State) (i : Instr), s.Inv → exec i s = .next t →
    (∀ g : RowGroup, t.stale[g] = false) ∧ ∀ g : RowGroup, t.rw[g] = pack t.cfg.toCfgData g t.px

/-- R29: no step changes the configuration, and port M's words are only ever used up from the front. -/
def Obligations.ConfigurationNeverChanges : Prop :=
  ∀ (n : Nat) (s t : State), core.run n s = .next t → t.cfg = s.cfg ∧ ∃ Cs, s.portM = Cs ++ t.portM

/-! ### The width -/

/-- R7, R8: the configuration of every state has the types of R7 and meets K1 to K4; the width of the block at hand is 32
(the spec's decision D1), but W stays a parameter: a legal configuration of width W exists exactly when W is at least 9, the
number of slots of a row-group (two of the 27 slots are empty, so one row-group has nine cells at nine bits). -/
def Obligations.WidthIsAParameter : Prop :=
  (∀ s : State, s.cfg.Sized ∧ s.cfg.K1 ∧ s.cfg.K2 ∧ s.cfg.K3 ∧ s.cfg.K4) ∧
  State.reset.cfg.W = 32 ∧
  ∀ W : Nat, (∃ c : Cfg, c.W = W) ↔ 9 ≤ W

/-! ### The cell strings -/

/-- R80 (the spec's decision D23): the image strings that are read are exactly five rows of five characters '0' or '1', a
'/' allowed between two rows, and the command is the SETIMAGE whose `img[n]` is character n, '/' not counted; the column
strings that are read are exactly five such characters, and character j is `cells[j]`. That each '/' may be left out by
itself, and that any other string is not read, is the model's reading (log entry 19). -/
def Obligations.CellStringsAreReadBitByBit : Prop :=
  let cell (b : Bool) : Char := if b then '1' else '0'
  let imageRow (img : BitVec 25) (r : Nat) : List Char := List.ofFn fun c : Fin 5 => cell (img.getLsbD (5 * r + c))
  let split (slash : Bool) : List Char := if slash then ['/'] else []
  (∀ (image : List Char) (i : Instr), assemble (.setImage image) = some i ↔
    ∃ (img : BitVec 25) (s₁ s₂ s₃ s₄ : Bool), i = .setImage img ∧
      image = imageRow img 0 ++ split s₁ ++ imageRow img 1 ++ split s₂ ++ imageRow img 2 ++ split s₃ ++
        imageRow img 3 ++ split s₄ ++ imageRow img 4) ∧
  (∀ (image : List Char) (img : BitVec 25), assemble (.setImage image) = some (.setImage img) →
    ∀ n : Nat, (image.filter (· != '/'))[n]? = if n < 25 then some (cell (img.getLsbD n)) else none) ∧
  (∀ (col : Nat) (string : List Char) (i : Instr), assemble (.setColumn col string) = some i ↔
    ∃ cells : BitVec 5, i = .setColumn col cells ∧ string = List.ofFn fun j : Fin 5 => cell (cells.getLsbD j))

/-! ### The reference configuration -/

/-- R75: `REF-MB1`, which is not normative and which the machine does not use (R9), has the width, the masks, the sentinel,
the positions and the cells of its table, each cell index the one of the (row, col) beside it; its row-groups hold 9, 7 and
9 cells; and whatever the buffer, its row-word g has select line 13+g and no other select line at 1, and slot line 4+k at 0
exactly where slot k is occupied by a cell of value 1. -/
def Obligations.ReferenceConfigurationFollowsItsTable : Prop :=
  let c := Config.refMb1
  let cellOf (row col : Nat) : Option Nat := some (idx row col)
  let table : Vector (Vector (Option Nat) 9) 3 := #v[
    #v[cellOf 1 1, cellOf 1 3, cellOf 1 5, cellOf 4 5, cellOf 4 4, cellOf 4 3, cellOf 4 2, cellOf 4 1, cellOf 3 2],
    #v[cellOf 3 5, cellOf 3 1, cellOf 3 3, cellOf 1 2, cellOf 1 4, cellOf 5 4, cellOf 5 2, none, none],
    #v[cellOf 5 3, cellOf 5 5, cellOf 5 1, cellOf 2 1, cellOf 2 2, cellOf 2 3, cellOf 2 4, cellOf 2 5, cellOf 3 4]]
  c.W = 32 ∧ c.pixelErr = 0xFF ∧
  (∀ b : Nat, c.ledMask.testBit b = decide (4 ≤ b ∧ b ≤ 15)) ∧
  (∀ (g : RowGroup) (b : Nat), (c.baseAt g).testBit b = decide (b = 13 + g ∨ 4 ≤ b ∧ b ≤ 12)) ∧
  (∀ (g : RowGroup) (k : Slot), c.posAt g k = 4 + k ∧ (c.cellAt g k).map Fin.val = table[g][k]) ∧
  (∀ g : RowGroup, (List.finRange 9).countP (fun k => (c.cellAt g k).isSome) = (#v[9, 7, 9] : Vector Nat 3)[g]) ∧
  (c.K1 ∧ c.K2 ∧ c.K3 ∧ c.K4) ∧
  (∀ (g : RowGroup) (px : Pixels),
    (∀ g' : RowGroup, (pack c.toCfgData g px).testBit (13 + g') = decide (g' = g)) ∧
    (∀ k : Slot, (pack c.toCfgData g px).testBit (4 + k) = false ↔ ∃ i : CellIdx, c.cellAt g k = some i ∧ px[i] = true))
end

