-- ==== Sys2Proof/Laws/Encoding.lean ====
section
/-! SUPPORT. The fields of a command word as arithmetic on its number, and the fields of the words `encode` writes (R60
to R65). -/

namespace Sys2Proof

theorem opField_toNat (C : Command) : (opField C).toNat = C.toNat / 2 ^ 28 := by
  have := C.isLt
  simp [opField, BitVec.extractLsb', Nat.shiftRight_eq_div_pow]
  omega

theorem rowField_toNat (C : Command) : (rowField C).toNat = C.toNat / 2 ^ 16 % 256 := by
  simp [rowField, BitVec.extractLsb', Nat.shiftRight_eq_div_pow]

theorem colField_toNat (C : Command) : (colField C).toNat = C.toNat / 2 ^ 8 % 256 := by
  simp [colField, BitVec.extractLsb', Nat.shiftRight_eq_div_pow]

theorem valField_toNat (C : Command) : (valField C).toNat = C.toNat % 256 := by
  simp [valField, BitVec.extractLsb']

theorem imgField_eq_ofNat (C : Command) : imgField C = BitVec.ofNat 25 C.toNat := by
  simp [imgField, BitVec.extractLsb']

theorem cellsField_eq_ofNat (C : Command) : cellsField C = BitVec.ofNat 5 C.toNat := by
  simp [cellsField, BitVec.extractLsb']

/-- Format P (R63): each field of the word is the operand it was made from. -/
theorem formatP_fields (op : BitVec 4) (row col val : Nat) :
    opField (formatP op row col val) = op ∧ rowField (formatP op row col val) = BitVec.ofNat 8 row ∧
      colField (formatP op row col val) = BitVec.ofNat 8 col ∧ valField (formatP op row col val) = BitVec.ofNat 8 val := by
  refine ⟨?_, ?_, ?_, ?_⟩ <;> ext i hi <;>
    simp only [formatP, opField, rowField, colField, valField, BitVec.getElem_extractLsb', BitVec.getLsbD_append] <;> grind

/-- Format I (R64): the opcode and the image of the word of a SETIMAGE. -/
theorem setImage_fields (img : BitVec 25) :
    opField (encode (.setImage img)) = 0x5 ∧ imgField (encode (.setImage img)) = img := by
  constructor <;> ext i hi <;>
    simp only [encode, opField, imgField, BitVec.getElem_extractLsb', BitVec.getLsbD_append] <;> grind

/-- Format C (R65): the opcode, the column and the cells of the word of a SETCOLUMN. -/
theorem setColumn_fields (col : Nat) (cells : BitVec 5) :
    opField (encode (.setColumn col cells)) = 0x6 ∧ colField (encode (.setColumn col cells)) = BitVec.ofNat 8 col ∧
      cellsField (encode (.setColumn col cells)) = cells := by
  refine ⟨?_, ?_, ?_⟩ <;> ext i hi <;>
    simp only [encode, opField, colField, cellsField, BitVec.getElem_extractLsb', BitVec.getLsbD_append] <;> grind

/-! ### Words as numbers -/

/-- Laying fields side by side, as arithmetic. -/
theorem toNat_append_eq_add {m n : Nat} (x : BitVec m) (y : BitVec n) : (x ++ y).toNat = x.toNat * 2 ^ n + y.toNat := by
  rw [BitVec.toNat_append, ← Nat.shiftLeft_add_eq_or_of_lt y.isLt, Nat.shiftLeft_eq]

/-- Format P as a number (R61). -/
theorem formatP_eq_ofNat (op : BitVec 4) {row col val : Nat} (hr : row < 256) (hc : col < 256) (hv : val < 256) :
    formatP op row col val = BitVec.ofNat 32 (op.toNat * 2 ^ 28 + row * 2 ^ 16 + col * 2 ^ 8 + val) := by
  have := op.isLt
  apply BitVec.eq_of_toNat_eq
  simp only [formatP, toNat_append_eq_add, BitVec.toNat_ofNat]
  omega

/-- Format I as a number (R61). -/
theorem encode_setImage_eq_ofNat (img : BitVec 25) : encode (.setImage img) = BitVec.ofNat 32 (0x50000000 + img.toNat) := by
  have := img.isLt
  apply BitVec.eq_of_toNat_eq
  simp only [encode, toNat_append_eq_add, BitVec.toNat_ofNat]
  omega

/-- Format C as a number (R61). -/
theorem encode_setColumn_eq_ofNat {col : Nat} (hc : col < 256) (cells : BitVec 5) :
    encode (.setColumn col cells) = BitVec.ofNat 32 (0x60000000 + col * 2 ^ 8 + cells.toNat) := by
  have := cells.isLt
  apply BitVec.eq_of_toNat_eq
  simp only [encode, toNat_append_eq_add, BitVec.toNat_ofNat]
  omega

end Sys2Proof
end

