-- ==== Sys2Proof/Laws/Assembler.lean ====
section
/-! SUPPORT. What each part of the assembler reads (R79, R80): decimal numbers, blanks, commas and comments, lines, and
cell strings. -/

namespace Sys2Proof

/-! ### Decimal operands -/

theorem decimal_append_digit (cs : List Char) (n : Nat) (c : Char) (hcs : decimal cs = some n) (hc : c.isDigit = true) :
    decimal (cs ++ [c]) = some (10 * n + (c.toNat - '0'.toNat)) := by
  have hd : '0' ≤ c ∧ c ≤ '9' := by simpa [Char.isDigit, Char.le_def] using hc
  unfold decimal at hcs ⊢
  split at hcs
  · cases hcs
  · have step : List.foldlM (fun n c => if '0' ≤ c ∧ c ≤ '9' then some (10 * n + (c.toNat - '0'.toNat)) else none) n [c] =
        some (10 * n + (c.toNat - '0'.toNat)) := by simp [hd]
    rw [if_neg (by simp), List.foldlM_append, hcs]
    exact step

/-- The digit characters stand in order, '0' first. -/
theorem digitChar_toNat {d : Nat} (h : d < 10) : (Nat.digitChar d).toNat - '0'.toNat = d ∧ (Nat.digitChar d).isDigit = true := by
  interval_cases d <;> decide

/-- The decimal text of a number reads as the number. -/
theorem decimal_toDigits (n : Nat) : decimal (Nat.toDigits 10 n) = some n := by
  induction n using Nat.strongRecOn with
  | ind n ih =>
    by_cases h : n < 10
    · rw [Nat.toDigits_of_lt_base h]
      interval_cases n <;> decide
    · have hd := digitChar_toNat (Nat.mod_lt n (by decide : 10 > 0))
      rw [Nat.toDigits_of_base_le (by decide) (by omega), decimal_append_digit _ _ _ (ih (n / 10) (by omega)) hd.2, hd.1]
      congr 1
      omega

/-- A decimal text holds no blank, no comma and no ';'. -/
theorem not_mem_toDigits {n : Nat} {c : Char} (hc : c.isDigit = false) : c ∉ Nat.toDigits 10 n := fun h => by
  simp [Nat.isDigit_of_mem_toDigits (by decide) (by decide) h] at hc

/-! ### Blanks and commas -/

theorem trimBlanks_pad (a b : Nat) (cs : List Char) :
    trimBlanks (List.replicate a ' ' ++ cs ++ List.replicate b ' ') = trimBlanks cs := by
  unfold trimBlanks
  rw [List.append_assoc, List.dropWhile_append_of_pos (by simp), List.dropWhile_append]
  split
  · rename_i h
    simp only [List.isEmpty_iff] at h
    simp [h]
  · rw [List.reverse_append, List.dropWhile_append_of_pos (by simp)]

/-- A text with no blank at its ends is not changed. -/
theorem trimBlanks_eq_self {cs : List Char} (hh : cs.head? ≠ some ' ') (hl : cs.getLast? ≠ some ' ') :
    trimBlanks cs = cs := by
  have drop : ∀ l : List Char, l.head? ≠ some ' ' → l.dropWhile (· == ' ') = l := by
    intro l h
    cases l <;> simp_all
  rw [trimBlanks, drop cs hh, drop _ (by simpa using hl), List.reverse_reverse]

theorem trimBlanks_of_not_mem {cs : List Char} (h : ' ' ∉ cs) : trimBlanks cs = cs :=
  trimBlanks_eq_self (fun hh => h (List.mem_of_mem_head? hh)) (fun hl => h (List.mem_of_getLast? hl))

theorem trimBlanks_blank_cons {cs : List Char} (h : ' ' ∉ cs) : trimBlanks (' ' :: cs) = cs := by
  simpa [trimBlanks_of_not_mem h] using trimBlanks_pad 1 0 cs

/-- A blank before a decimal operand is not part of it. -/
theorem trimBlanks_blank_toDigits (n : Nat) : trimBlanks (' ' :: Nat.toDigits 10 n) = Nat.toDigits 10 n :=
  trimBlanks_blank_cons (not_mem_toDigits (by decide))

theorem splitCommas_of_not_mem {cs : List Char} (h : ',' ∉ cs) : splitCommas cs = [cs] := by
  induction cs with
  | nil => rfl
  | cons c cs ih =>
    rw [List.mem_cons, not_or] at h
    simp [splitCommas, ih h.2, Ne.symm h.1]

theorem splitCommas_ne_nil (cs : List Char) : splitCommas cs ≠ [] := by
  induction cs with
  | nil => simp [splitCommas]
  | cons c cs ih =>
    unfold splitCommas
    split
    · contradiction
    · split <;> simp

theorem splitCommas_comma_cons (cs : List Char) : splitCommas (',' :: cs) = [] :: splitCommas cs := by
  conv => lhs; unfold splitCommas
  split
  · exact absurd ‹_› (splitCommas_ne_nil cs)
  · simp [*]

theorem splitCommas_append {a : List Char} (h : ',' ∉ a) (b : List Char) :
    splitCommas (a ++ ',' :: b) = a :: splitCommas b := by
  induction a with
  | nil => exact splitCommas_comma_cons b
  | cons c a ih =>
    rw [List.mem_cons, not_or] at h
    simp [splitCommas, ih h.2, Ne.symm h.1]

/-! ### Lines -/

/-- What ';' starts is not read (R79). -/
theorem assembleText_comment {text : List Char} (h : ';' ∉ text) (comment : List Char) :
    assembleText (text ++ ';' :: comment) = assembleText text := by
  have pos : ∀ c ∈ text, (c != ';') = true := fun c hc => by
    simp only [bne_iff_ne, ne_eq]; rintro rfl; exact h hc
  simp only [assembleText, parseLine]
  rw [List.takeWhile_append_of_pos pos, List.takeWhile_eq_self_iff.2 pos, List.takeWhile_cons_of_neg (by simp),
    List.append_nil]

/-- Blanks at the ends of a text are not read. -/
theorem assembleText_pad (text : List Char) (a b : Nat) :
    assembleText (List.replicate a ' ' ++ text ++ List.replicate b ' ') = assembleText text := by
  have body : ∃ b', (List.replicate a ' ' ++ text ++ List.replicate b ' ').takeWhile (· != ';') =
      List.replicate a ' ' ++ text.takeWhile (· != ';') ++ List.replicate b' ' ' := by
    rw [List.append_assoc, List.takeWhile_append_of_pos (by simp), List.takeWhile_append]
    split
    · rename_i h
      refine ⟨b, ?_⟩
      rw [List.takeWhile_eq_self_iff.2 (by simp), ← List.append_assoc,
        (List.takeWhile_prefix _).eq_of_length h]
    · exact ⟨0, by simp⟩
  obtain ⟨b', hb⟩ := body
  simp only [assembleText, parseLine]
  rw [hb, trimBlanks_pad]

/-- A mnemonic without operands. -/
theorem parseLine_name {name : List Char} (hb : ' ' ∉ name) (hs : ';' ∉ name) : parseLine name = lineOf name [] := by
  have pos : ∀ x : Char, x ∉ name → ∀ c ∈ name, (c != x) = true := fun x hx c hc => by
    simp only [bne_iff_ne, ne_eq]; rintro rfl; exact hx hc
  simp only [parseLine]
  rw [List.takeWhile_eq_self_iff.2 (pos _ hs), trimBlanks_of_not_mem hb, List.takeWhile_eq_self_iff.2 (pos _ hb),
    List.drop_length]
  rfl

/-- A mnemonic, a blank and the operands: the pieces between the commas are the operand texts (R79). -/
theorem parseLine_operands {name ops : List Char} (hn : name ≠ []) (hb : ' ' ∉ name) (hs : ';' ∉ name)
    (hne : ops ≠ []) (hops : ';' ∉ ops) (hh : ops.head? ≠ some ' ') (hl : ops.getLast? ≠ some ' ') :
    parseLine (name ++ ' ' :: ops) = lineOf name ((splitCommas (' ' :: ops)).map trimBlanks) := by
  have all : ∀ c ∈ name ++ ' ' :: ops, (c != ';') = true := fun c hc => by
    simp only [bne_iff_ne, ne_eq]; rintro rfl; simp_all
  have pos : ∀ c ∈ name, (c != ' ') = true := fun c hc => by
    simp only [bne_iff_ne, ne_eq]; rintro rfl; exact hb hc
  have trim : trimBlanks (name ++ ' ' :: ops) = name ++ ' ' :: ops := by
    apply trimBlanks_eq_self
    · cases name with
      | nil => contradiction
      | cons c _ => simp_all
    · rwa [show name ++ ' ' :: ops = (name ++ [' ']) ++ ops by simp, List.getLast?_append_of_ne_nil _ hne]
  simp only [parseLine]
  rw [List.takeWhile_eq_self_iff.2 all, trim, List.takeWhile_append_of_pos pos, List.takeWhile_cons_of_neg (by simp),
    List.append_nil, List.drop_left]
  have : trimBlanks (' ' :: ops) = ops := by
    simpa [trimBlanks_eq_self hh hl] using trimBlanks_pad 1 0 ops
  simp [operandTexts, this, hne]

/-! ### Cell strings -/

/-- The character of a cell (R80). -/
def cellText (b : Bool) : Char := if b then '1' else '0'

theorem cellChar_eq_some {c : Char} {b : Bool} : cellChar c = some b ↔ c = cellText b := by
  unfold cellChar cellText
  split <;> cases b <;> simp_all

theorem mapM_cellChar_eq_some {cs : List Char} {bs : List Bool} :
    cs.mapM cellChar = some bs ↔ cs = bs.map cellText := by
  induction cs generalizing bs with
  | nil => cases bs <;> simp
  | cons c cs ih =>
    simp only [List.mapM_cons]
    cases bs with
    | nil =>
      cases cellChar c with
      | none => simp
      | some _ => cases cs.mapM cellChar <;> simp
    | cons b bs =>
      rw [List.map_cons, List.cons.injEq, ← ih, ← cellChar_eq_some]
      cases cellChar c <;> cases cs.mapM cellChar <;> simp

theorem afterRow_cases (n : Nat) (rest : List Char) :
    rest = afterRow n rest ∨ n ≠ 0 ∧ rest = '/' :: afterRow n rest := by
  unfold afterRow
  split
  · exact .inr ⟨by simp, rfl⟩
  · exact .inl rfl

/-- No '/' is left out before characters that read as rows. -/
theorem afterRow_of_rowChars {n : Nat} {rest : List Char} {bs : List Bool} (h : rowChars n rest = some bs) :
    afterRow n rest = rest := by
  unfold afterRow
  split
  · rename_i m tail
    match tail with
    | b :: c :: d :: e :: tail => simp [rowChars, cellChar] at h
    | [] | [_] | [_, _] | [_, _, _] => simp [rowChars] at h
  · rfl

/-- What one more row reads as (R80): five cell characters, a '/' that may stand before a further row, and the rest. -/
theorem rowChars_succ_eq_some {n : Nat} {cs : List Char} {bs : List Bool} :
    rowChars (n + 1) cs = some bs ↔
      ∃ (row more : List Bool) (slash rest : List Char), row.length = 5 ∧ bs = row ++ more ∧
        (slash = [] ∨ n ≠ 0 ∧ slash = ['/']) ∧ cs = row.map cellText ++ slash ++ rest ∧ rowChars n rest = some more := by
  constructor
  · intro h
    match cs, h with
    | a :: b :: c :: d :: e :: rest, h =>
      simp only [rowChars, Option.bind_eq_bind, Option.bind_eq_some_iff, Option.pure_def, Option.some.injEq] at h
      obtain ⟨row, hr, more, hm, rfl⟩ := h
      have hc := mapM_cellChar_eq_some.1 hr
      have hl : row.length = 5 := by simpa using (congrArg List.length hc).symm
      obtain h | ⟨hn, h⟩ := afterRow_cases n rest
      · exact ⟨row, more, [], afterRow n rest, hl, rfl, .inl rfl, by simp [← hc, ← h], hm⟩
      · exact ⟨row, more, ['/'], afterRow n rest, hl, rfl, .inr ⟨hn, rfl⟩, by simp [← hc, ← h], hm⟩
  · rintro ⟨row, more, slash, rest, hl, rfl, hs, rfl, hm⟩
    match row, hl with
    | [a, b, c, d, e], _ =>
      have hr : [cellText a, cellText b, cellText c, cellText d, cellText e].mapM cellChar = some [a, b, c, d, e] :=
        mapM_cellChar_eq_some.2 rfl
      have after : afterRow n (slash ++ rest) = rest := by
        obtain rfl | ⟨hn, rfl⟩ := hs
        · exact afterRow_of_rowChars hm
        · obtain ⟨n, rfl⟩ := Nat.exists_eq_succ_of_ne_zero hn
          rfl
      simp [rowChars, hr, after, hm]

theorem rowChars_zero_eq_some {cs : List Char} {bs : List Bool} : rowChars 0 cs = some bs ↔ cs = [] ∧ bs = [] := by
  cases cs <;> simp [rowChars, eq_comm]

/-- As many cells are read as rows hold. -/
theorem length_of_rowChars {n : Nat} {cs : List Char} {bs : List Bool} (h : rowChars n cs = some bs) : bs.length = 5 * n := by
  induction n generalizing cs bs with
  | zero => simp [rowChars_zero_eq_some.1 h]
  | succ n ih =>
    obtain ⟨row, more, _, _, hl, rfl, _, _, hm⟩ := rowChars_succ_eq_some.1 h
    simp [hl, ih hm]
    omega

/-- Without the '/', the characters that are read are the cells in order (R80). -/
theorem filter_of_rowChars {n : Nat} {cs : List Char} {bs : List Bool} (h : rowChars n cs = some bs) :
    cs.filter (· != '/') = bs.map cellText := by
  induction n generalizing cs bs with
  | zero => simp [rowChars_zero_eq_some.1 h]
  | succ n ih =>
    obtain ⟨row, more, slash, rest, _, rfl, hs, rfl, hm⟩ := rowChars_succ_eq_some.1 h
    have hrow : (row.map cellText).filter (· != '/') = row.map cellText := by
      rw [List.filter_eq_self]
      simp only [List.mem_map, forall_exists_index, and_imp]
      rintro _ b _ rfl
      cases b <;> rfl
    obtain rfl | ⟨_, rfl⟩ := hs <;> simp [hrow, ih hm]

/-- Bit j of the field is cell j of the list (R80). -/
theorem getLsbD_cellBits (n : Nat) (cells : List Bool) (j : Nat) :
    (cellBits n cells).getLsbD j = (decide (j < n) && cells.getD j false) := by
  simp [cellBits, BitVec.getLsbD_setWidth, BitVec.getLsbD_ofBoolListLE]

theorem getElem_cellBits (n : Nat) (cells : List Bool) (j : Nat) (hj : j < n) :
    (cellBits n cells)[j] = cells.getD j false := by
  rw [← BitVec.getLsbD_eq_getElem, getLsbD_cellBits]
  simp [hj]

/-- The field is the one whose bits, in order, are the cells (R80). -/
theorem cellBits_ofFn {n : Nat} (w : BitVec n) : cellBits n (List.ofFn fun j : Fin n => w.getLsbD j) = w := by
  ext j hj
  simp [getElem_cellBits, List.getD, hj]

end Sys2Proof
end

