-- ==== Sys2Proof/Laws/State.lean ====
section
/-! SUPPORT. One lemma per field per named update of the state. -/

namespace Sys2Proof.Machine
/-! ### setTodo -/

@[simp] theorem setTodo_cfg (ms : List Micro) (s : State) : (setTodo ms s).cfg = s.cfg := rfl
@[simp] theorem setTodo_px (ms : List Micro) (s : State) : (setTodo ms s).px = s.px := rfl
@[simp] theorem setTodo_rw (ms : List Micro) (s : State) : (setTodo ms s).rw = s.rw := rfl
@[simp] theorem setTodo_cur (ms : List Micro) (s : State) : (setTodo ms s).cur = s.cur := rfl
@[simp] theorem setTodo_stale (ms : List Micro) (s : State) : (setTodo ms s).stale = s.stale := rfl
@[simp] theorem setTodo_out (ms : List Micro) (s : State) : (setTodo ms s).out = s.out := rfl
@[simp] theorem setTodo_todo (ms : List Micro) (s : State) : (setTodo ms s).todo = ms := rfl
@[simp] theorem setTodo_constructed (ms : List Micro) (s : State) : (setTodo ms s).constructed = s.constructed := rfl
@[simp] theorem setTodo_portM (ms : List Micro) (s : State) : (setTodo ms s).portM = s.portM := rfl
@[simp] theorem setTodo_env (ms : List Micro) (s : State) : (setTodo ms s).env = s.env := rfl
@[simp] theorem setTodo_responses (ms : List Micro) (s : State) : (setTodo ms s).responses = s.responses := rfl
@[simp] theorem setTodo_events (ms : List Micro) (s : State) : (setTodo ms s).events = s.events := rfl

/-! ### setEnv -/

@[simp] theorem setEnv_cfg (ts : List Turn) (s : State) : (setEnv ts s).cfg = s.cfg := rfl
@[simp] theorem setEnv_px (ts : List Turn) (s : State) : (setEnv ts s).px = s.px := rfl
@[simp] theorem setEnv_rw (ts : List Turn) (s : State) : (setEnv ts s).rw = s.rw := rfl
@[simp] theorem setEnv_cur (ts : List Turn) (s : State) : (setEnv ts s).cur = s.cur := rfl
@[simp] theorem setEnv_stale (ts : List Turn) (s : State) : (setEnv ts s).stale = s.stale := rfl
@[simp] theorem setEnv_out (ts : List Turn) (s : State) : (setEnv ts s).out = s.out := rfl
@[simp] theorem setEnv_todo (ts : List Turn) (s : State) : (setEnv ts s).todo = s.todo := rfl
@[simp] theorem setEnv_constructed (ts : List Turn) (s : State) : (setEnv ts s).constructed = s.constructed := rfl
@[simp] theorem setEnv_portM (ts : List Turn) (s : State) : (setEnv ts s).portM = s.portM := rfl
@[simp] theorem setEnv_env (ts : List Turn) (s : State) : (setEnv ts s).env = ts := rfl
@[simp] theorem setEnv_responses (ts : List Turn) (s : State) : (setEnv ts s).responses = s.responses := rfl
@[simp] theorem setEnv_events (ts : List Turn) (s : State) : (setEnv ts s).events = s.events := rfl

/-! ### setPortM -/

@[simp] theorem setPortM_cfg (Cs : List Command) (s : State) : (setPortM Cs s).cfg = s.cfg := rfl
@[simp] theorem setPortM_px (Cs : List Command) (s : State) : (setPortM Cs s).px = s.px := rfl
@[simp] theorem setPortM_rw (Cs : List Command) (s : State) : (setPortM Cs s).rw = s.rw := rfl
@[simp] theorem setPortM_cur (Cs : List Command) (s : State) : (setPortM Cs s).cur = s.cur := rfl
@[simp] theorem setPortM_stale (Cs : List Command) (s : State) : (setPortM Cs s).stale = s.stale := rfl
@[simp] theorem setPortM_out (Cs : List Command) (s : State) : (setPortM Cs s).out = s.out := rfl
@[simp] theorem setPortM_todo (Cs : List Command) (s : State) : (setPortM Cs s).todo = s.todo := rfl
@[simp] theorem setPortM_constructed (Cs : List Command) (s : State) : (setPortM Cs s).constructed = s.constructed := rfl
@[simp] theorem setPortM_portM (Cs : List Command) (s : State) : (setPortM Cs s).portM = Cs := rfl
@[simp] theorem setPortM_env (Cs : List Command) (s : State) : (setPortM Cs s).env = s.env := rfl
@[simp] theorem setPortM_responses (Cs : List Command) (s : State) : (setPortM Cs s).responses = s.responses := rfl
@[simp] theorem setPortM_events (Cs : List Command) (s : State) : (setPortM Cs s).events = s.events := rfl

@[simp] theorem setTodo_setTodo (ms ns : List Micro) (s : State) : setTodo ms (setTodo ns s) = setTodo ms s := rfl
@[simp] theorem setEnv_setEnv (ts us : List Turn) (s : State) : setEnv ts (setEnv us s) = setEnv ts s := rfl
@[simp] theorem setTodo_self (s : State) : setTodo s.todo s = s := rfl
@[simp] theorem setEnv_self (s : State) : setEnv s.env s = s := rfl

/-! ### writeBuffer -/

@[simp] theorem writeBuffer_cfg (b : BufferWrite) (s : State) : (writeBuffer b s).cfg = s.cfg := rfl
@[simp] theorem writeBuffer_px (b : BufferWrite) (s : State) : (writeBuffer b s).px = applyWrite b s.px := rfl
@[simp] theorem writeBuffer_rw (b : BufferWrite) (s : State) : (writeBuffer b s).rw = s.rw := rfl
@[simp] theorem writeBuffer_cur (b : BufferWrite) (s : State) : (writeBuffer b s).cur = s.cur := rfl
@[simp] theorem writeBuffer_stale (b : BufferWrite) (s : State) : (writeBuffer b s).stale = allStale := rfl
@[simp] theorem writeBuffer_out (b : BufferWrite) (s : State) : (writeBuffer b s).out = s.out := rfl
@[simp] theorem writeBuffer_todo (b : BufferWrite) (s : State) : (writeBuffer b s).todo = s.todo := rfl
@[simp] theorem writeBuffer_constructed (b : BufferWrite) (s : State) : (writeBuffer b s).constructed = s.constructed := rfl
@[simp] theorem writeBuffer_portM (b : BufferWrite) (s : State) : (writeBuffer b s).portM = s.portM := rfl
@[simp] theorem writeBuffer_env (b : BufferWrite) (s : State) : (writeBuffer b s).env = s.env := rfl
@[simp] theorem writeBuffer_responses (b : BufferWrite) (s : State) : (writeBuffer b s).responses = s.responses := rfl
@[simp] theorem writeBuffer_events (b : BufferWrite) (s : State) : (writeBuffer b s).events = s.events := rfl

/-! ### recomputeWord -/

@[simp] theorem recomputeWord_cfg (g : RowGroup) (s : State) : (recomputeWord g s).cfg = s.cfg := rfl
@[simp] theorem recomputeWord_px (g : RowGroup) (s : State) : (recomputeWord g s).px = s.px := rfl
@[simp] theorem recomputeWord_rw (g : RowGroup) (s : State) : (recomputeWord g s).rw = s.rw.set g.val (pack s.cfg.toCfgData g s.px) := rfl
@[simp] theorem recomputeWord_cur (g : RowGroup) (s : State) : (recomputeWord g s).cur = s.cur := rfl
@[simp] theorem recomputeWord_stale (g : RowGroup) (s : State) : (recomputeWord g s).stale = s.stale.set g.val false := rfl
@[simp] theorem recomputeWord_out (g : RowGroup) (s : State) : (recomputeWord g s).out = s.out := rfl
@[simp] theorem recomputeWord_todo (g : RowGroup) (s : State) : (recomputeWord g s).todo = s.todo := rfl
@[simp] theorem recomputeWord_constructed (g : RowGroup) (s : State) : (recomputeWord g s).constructed = s.constructed := rfl
@[simp] theorem recomputeWord_portM (g : RowGroup) (s : State) : (recomputeWord g s).portM = s.portM := rfl
@[simp] theorem recomputeWord_env (g : RowGroup) (s : State) : (recomputeWord g s).env = s.env := rfl
@[simp] theorem recomputeWord_responses (g : RowGroup) (s : State) : (recomputeWord g s).responses = s.responses := rfl
@[simp] theorem recomputeWord_events (g : RowGroup) (s : State) : (recomputeWord g s).events = s.events := rfl

/-! ### emitClr -/

@[simp] theorem emitClr_cfg (m : Word) (s : State) : (emitClr m s).cfg = s.cfg := rfl
@[simp] theorem emitClr_px (m : Word) (s : State) : (emitClr m s).px = s.px := rfl
@[simp] theorem emitClr_rw (m : Word) (s : State) : (emitClr m s).rw = s.rw := rfl
@[simp] theorem emitClr_cur (m : Word) (s : State) : (emitClr m s).cur = s.cur := rfl
@[simp] theorem emitClr_stale (m : Word) (s : State) : (emitClr m s).stale = s.stale := rfl
@[simp] theorem emitClr_out (m : Word) (s : State) : (emitClr m s).out = s.out &&& notW s.cfg.W m := rfl
@[simp] theorem emitClr_todo (m : Word) (s : State) : (emitClr m s).todo = s.todo := rfl
@[simp] theorem emitClr_constructed (m : Word) (s : State) : (emitClr m s).constructed = s.constructed := rfl
@[simp] theorem emitClr_portM (m : Word) (s : State) : (emitClr m s).portM = s.portM := rfl
@[simp] theorem emitClr_env (m : Word) (s : State) : (emitClr m s).env = s.env := rfl
@[simp] theorem emitClr_responses (m : Word) (s : State) : (emitClr m s).responses = s.responses := rfl
@[simp] theorem emitClr_events (m : Word) (s : State) : (emitClr m s).events = s.events ++ [.clr m] := rfl

/-! ### emitSet -/

@[simp] theorem emitSet_cfg (m : Word) (s : State) : (emitSet m s).cfg = s.cfg := rfl
@[simp] theorem emitSet_px (m : Word) (s : State) : (emitSet m s).px = s.px := rfl
@[simp] theorem emitSet_rw (m : Word) (s : State) : (emitSet m s).rw = s.rw := rfl
@[simp] theorem emitSet_cur (m : Word) (s : State) : (emitSet m s).cur = s.cur := rfl
@[simp] theorem emitSet_stale (m : Word) (s : State) : (emitSet m s).stale = s.stale := rfl
@[simp] theorem emitSet_out (m : Word) (s : State) : (emitSet m s).out = s.out ||| m := rfl
@[simp] theorem emitSet_todo (m : Word) (s : State) : (emitSet m s).todo = s.todo := rfl
@[simp] theorem emitSet_constructed (m : Word) (s : State) : (emitSet m s).constructed = s.constructed := rfl
@[simp] theorem emitSet_portM (m : Word) (s : State) : (emitSet m s).portM = s.portM := rfl
@[simp] theorem emitSet_env (m : Word) (s : State) : (emitSet m s).env = s.env := rfl
@[simp] theorem emitSet_responses (m : Word) (s : State) : (emitSet m s).responses = s.responses := rfl
@[simp] theorem emitSet_events (m : Word) (s : State) : (emitSet m s).events = s.events ++ [.set m] := rfl

/-! ### advance -/

@[simp] theorem advance_cfg (s : State) : (advance s).cfg = s.cfg := rfl
@[simp] theorem advance_px (s : State) : (advance s).px = s.px := rfl
@[simp] theorem advance_rw (s : State) : (advance s).rw = s.rw := rfl
@[simp] theorem advance_cur (s : State) : (advance s).cur = s.cur + 1 := rfl
@[simp] theorem advance_stale (s : State) : (advance s).stale = s.stale := rfl
@[simp] theorem advance_out (s : State) : (advance s).out = s.out := rfl
@[simp] theorem advance_todo (s : State) : (advance s).todo = s.todo := rfl
@[simp] theorem advance_constructed (s : State) : (advance s).constructed = s.constructed := rfl
@[simp] theorem advance_portM (s : State) : (advance s).portM = s.portM := rfl
@[simp] theorem advance_env (s : State) : (advance s).env = s.env := rfl
@[simp] theorem advance_responses (s : State) : (advance s).responses = s.responses := rfl
@[simp] theorem advance_events (s : State) : (advance s).events = s.events := rfl

/-! ### emitStep -/

@[simp] theorem emitStep_cfg (s : State) : (emitStep s).cfg = s.cfg := rfl
@[simp] theorem emitStep_px (s : State) : (emitStep s).px = s.px := rfl
@[simp] theorem emitStep_rw (s : State) : (emitStep s).rw = s.rw := rfl
@[simp] theorem emitStep_cur (s : State) : (emitStep s).cur = s.cur + 1 := rfl
@[simp] theorem emitStep_stale (s : State) : (emitStep s).stale = s.stale := rfl
@[simp] theorem emitStep_out (s : State) : (emitStep s).out = (s.out &&& s.cfg.notLedMask) ||| s.rw[s.cur] := rfl
@[simp] theorem emitStep_todo (s : State) : (emitStep s).todo = s.todo := rfl
@[simp] theorem emitStep_constructed (s : State) : (emitStep s).constructed = s.constructed := rfl
@[simp] theorem emitStep_portM (s : State) : (emitStep s).portM = s.portM := rfl
@[simp] theorem emitStep_env (s : State) : (emitStep s).env = s.env := rfl
@[simp] theorem emitStep_responses (s : State) : (emitStep s).responses = s.responses := rfl
@[simp] theorem emitStep_events (s : State) : (emitStep s).events = s.events ++ [.clr s.cfg.ledMask] ++ [.set s.rw[s.cur]] := rfl

/-! ### respond -/

@[simp] theorem respond_cfg (v : Byte) (s : State) : (respond v s).cfg = s.cfg := rfl
@[simp] theorem respond_px (v : Byte) (s : State) : (respond v s).px = s.px := rfl
@[simp] theorem respond_rw (v : Byte) (s : State) : (respond v s).rw = s.rw := rfl
@[simp] theorem respond_cur (v : Byte) (s : State) : (respond v s).cur = s.cur := rfl
@[simp] theorem respond_stale (v : Byte) (s : State) : (respond v s).stale = s.stale := rfl
@[simp] theorem respond_out (v : Byte) (s : State) : (respond v s).out = s.out := rfl
@[simp] theorem respond_todo (v : Byte) (s : State) : (respond v s).todo = s.todo := rfl
@[simp] theorem respond_constructed (v : Byte) (s : State) : (respond v s).constructed = s.constructed := rfl
@[simp] theorem respond_portM (v : Byte) (s : State) : (respond v s).portM = s.portM := rfl
@[simp] theorem respond_env (v : Byte) (s : State) : (respond v s).env = s.env := rfl
@[simp] theorem respond_responses (v : Byte) (s : State) : (respond v s).responses = s.responses ++ [v] := rfl
@[simp] theorem respond_events (v : Byte) (s : State) : (respond v s).events = s.events := rfl

/-! ### foreignWrite -/

@[simp] theorem foreignWrite_cfg (v : Word) (s : State) : (foreignWrite v s).cfg = s.cfg := rfl
@[simp] theorem foreignWrite_px (v : Word) (s : State) : (foreignWrite v s).px = s.px := rfl
@[simp] theorem foreignWrite_rw (v : Word) (s : State) : (foreignWrite v s).rw = s.rw := rfl
@[simp] theorem foreignWrite_cur (v : Word) (s : State) : (foreignWrite v s).cur = s.cur := rfl
@[simp] theorem foreignWrite_stale (v : Word) (s : State) : (foreignWrite v s).stale = s.stale := rfl
@[simp] theorem foreignWrite_out (v : Word) (s : State) : (foreignWrite v s).out = (s.out &&& s.cfg.ledMask) ||| (v &&& s.cfg.notLedMask) := rfl
@[simp] theorem foreignWrite_todo (v : Word) (s : State) : (foreignWrite v s).todo = s.todo := rfl
@[simp] theorem foreignWrite_constructed (v : Word) (s : State) : (foreignWrite v s).constructed = s.constructed := rfl
@[simp] theorem foreignWrite_portM (v : Word) (s : State) : (foreignWrite v s).portM = s.portM := rfl
@[simp] theorem foreignWrite_env (v : Word) (s : State) : (foreignWrite v s).env = s.env := rfl
@[simp] theorem foreignWrite_responses (v : Word) (s : State) : (foreignWrite v s).responses = s.responses := rfl
@[simp] theorem foreignWrite_events (v : Word) (s : State) : (foreignWrite v s).events = s.events := rfl

/-! ### ledWrite -/

@[simp] theorem ledWrite_cfg (v : Word) (s : State) : (ledWrite v s).cfg = s.cfg := rfl
@[simp] theorem ledWrite_px (v : Word) (s : State) : (ledWrite v s).px = s.px := rfl
@[simp] theorem ledWrite_rw (v : Word) (s : State) : (ledWrite v s).rw = s.rw := rfl
@[simp] theorem ledWrite_cur (v : Word) (s : State) : (ledWrite v s).cur = s.cur := rfl
@[simp] theorem ledWrite_stale (v : Word) (s : State) : (ledWrite v s).stale = s.stale := rfl
@[simp] theorem ledWrite_out (v : Word) (s : State) : (ledWrite v s).out = (s.out &&& s.cfg.notLedMask) ||| (v &&& s.cfg.ledMask) := rfl
@[simp] theorem ledWrite_todo (v : Word) (s : State) : (ledWrite v s).todo = s.todo := rfl
@[simp] theorem ledWrite_constructed (v : Word) (s : State) : (ledWrite v s).constructed = s.constructed := rfl
@[simp] theorem ledWrite_portM (v : Word) (s : State) : (ledWrite v s).portM = s.portM := rfl
@[simp] theorem ledWrite_env (v : Word) (s : State) : (ledWrite v s).env = s.env := rfl
@[simp] theorem ledWrite_responses (v : Word) (s : State) : (ledWrite v s).responses = s.responses := rfl
@[simp] theorem ledWrite_events (v : Word) (s : State) : (ledWrite v s).events = s.events := rfl

/-! ### recompute: only the row-words and the stale set -/

@[simp] theorem recompute_cfg (p : RowGroup) (s : State) : (recompute p s).cfg = s.cfg := by
  unfold recompute; split <;> rfl
@[simp] theorem recompute_px (p : RowGroup) (s : State) : (recompute p s).px = s.px := by
  unfold recompute; split <;> rfl
@[simp] theorem recompute_cur (p : RowGroup) (s : State) : (recompute p s).cur = s.cur := by
  unfold recompute; split <;> rfl
@[simp] theorem recompute_out (p : RowGroup) (s : State) : (recompute p s).out = s.out := by
  unfold recompute; split <;> rfl
@[simp] theorem recompute_todo (p : RowGroup) (s : State) : (recompute p s).todo = s.todo := by
  unfold recompute; split <;> rfl
@[simp] theorem recompute_constructed (p : RowGroup) (s : State) : (recompute p s).constructed = s.constructed := by
  unfold recompute; split <;> rfl
@[simp] theorem recompute_portM (p : RowGroup) (s : State) : (recompute p s).portM = s.portM := by
  unfold recompute; split <;> rfl
@[simp] theorem recompute_env (p : RowGroup) (s : State) : (recompute p s).env = s.env := by
  unfold recompute; split <;> rfl
@[simp] theorem recompute_responses (p : RowGroup) (s : State) : (recompute p s).responses = s.responses := by
  unfold recompute; split <;> rfl
@[simp] theorem recompute_events (p : RowGroup) (s : State) : (recompute p s).events = s.events := by
  unfold recompute; split <;> rfl

/-! ### What no micro-step touches -/

@[simp] theorem runMicro_cfg (m : Micro) (p : RowGroup) (s : State) : (runMicro m p s).cfg = s.cfg := by
  cases m <;> simp [runMicro]
@[simp] theorem runMicro_todo (m : Micro) (p : RowGroup) (s : State) : (runMicro m p s).todo = s.todo := by
  cases m <;> simp [runMicro]
@[simp] theorem runMicro_constructed (m : Micro) (p : RowGroup) (s : State) : (runMicro m p s).constructed = s.constructed := by
  cases m <;> simp [runMicro]
@[simp] theorem runMicro_portM (m : Micro) (p : RowGroup) (s : State) : (runMicro m p s).portM = s.portM := by
  cases m <;> simp [runMicro]
@[simp] theorem runMicro_env (m : Micro) (p : RowGroup) (s : State) : (runMicro m p s).env = s.env := by
  cases m <;> simp [runMicro]
@[simp] theorem mainTurn_cfg (p : RowGroup) (s : State) : (mainTurn p s).cfg = s.cfg := by
  unfold mainTurn; split <;> simp
@[simp] theorem finish_cfg (n : Nat) (s : State) : (finish n s).cfg = s.cfg := by
  induction n generalizing s with
  | zero => rfl
  | succ n ih => simp [finish, ih]
@[simp] theorem mainTurn_constructed (p : RowGroup) (s : State) : (mainTurn p s).constructed = s.constructed := by
  unfold mainTurn; split <;> simp
@[simp] theorem finish_constructed (n : Nat) (s : State) : (finish n s).constructed = s.constructed := by
  induction n generalizing s with
  | zero => rfl
  | succ n ih => simp [finish, ih]
@[simp] theorem mainTurn_portM (p : RowGroup) (s : State) : (mainTurn p s).portM = s.portM := by
  unfold mainTurn; split <;> simp
@[simp] theorem finish_portM (n : Nat) (s : State) : (finish n s).portM = s.portM := by
  induction n generalizing s with
  | zero => rfl
  | succ n ih => simp [finish, ih]
@[simp] theorem mainTurn_env (p : RowGroup) (s : State) : (mainTurn p s).env = s.env := by
  unfold mainTurn; split <;> simp
@[simp] theorem finish_env (n : Nat) (s : State) : (finish n s).env = s.env := by
  induction n generalizing s with
  | zero => rfl
  | succ n ih => simp [finish, ih]
@[simp] theorem mainTurn_todo (p : RowGroup) (s : State) : (mainTurn p s).todo = s.todo.tail := by
  unfold mainTurn; split <;> simp [*]

/-! ### Micro-steps do not look at what is left to do -/

theorem recompute_setTodo (p : RowGroup) (ms : List Micro) (s : State) :
    recompute p (setTodo ms s) = setTodo ms (recompute p s) := by
  unfold recompute
  simp only [setTodo_stale]
  split <;> rfl

theorem runMicro_setTodo (m : Micro) (p : RowGroup) (ms : List Micro) (s : State) :
    runMicro m p (setTodo ms s) = setTodo ms (runMicro m p s) := by
  cases m with
  | recompute => exact recompute_setTodo p ms s
  | write b => rfl
  | emit => rfl
  | respond c => rfl

/-- Port M's turn with a command in progress is its next micro-step. -/
theorem mainTurn_setTodo_cons (p : RowGroup) (m : Micro) (ms : List Micro) (s : State) :
    mainTurn p (setTodo (m :: ms) s) = setTodo ms (runMicro m p s) := by
  rw [← runMicro_setTodo]; rfl

theorem mainTurn_of_todo {p : RowGroup} {m : Micro} {ms : List Micro} {s : State} (h : s.todo = m :: ms) :
    mainTurn p s = setTodo ms (runMicro m p s) := by
  rw [← runMicro_setTodo]; simp [mainTurn, h]

theorem mainTurn_of_nil {p : RowGroup} {s : State} (h : s.todo = []) : mainTurn p s = s := by
  simp [mainTurn, h]

end Sys2Proof.Machine
end

