-- ==== Sys2Proof/Laws/Ops.lean ====
section
/-! SUPPORT. What each shared operation can do: choosing a stale row-word, recomputing, taking a turn, running a
command to its end, and issuing one. -/

namespace Sys2Proof.Machine

/-! ### Choosing and recomputing -/

/-- Only a stale row-group is chosen (R90). -/
theorem chooseStale_stale {p g : RowGroup} {st : Vector Bool 3} (h : chooseStale p st = some g) : st[g] = true := by
  unfold chooseStale at h
  split at h
  · cases h; assumption
  · split at h
    · cases h; assumption
    · split at h
      · cases h; assumption
      · cases h

/-- A stale row-group is chosen when the schedule asks for it: every order is admitted (R51). -/
theorem chooseStale_self {g : RowGroup} {st : Vector Bool 3} (h : st[g] = true) : chooseStale g st = some g := by
  unfold chooseStale; exact if_pos h

/-- Nothing is chosen only when nothing is stale. -/
theorem chooseStale_none {p : RowGroup} {st : Vector Bool 3} (h : chooseStale p st = none) (g : RowGroup) :
    st[g] = false := by
  unfold chooseStale at h
  split at h
  · cases h
  · split at h
    · cases h
    · split at h
      · cases h
      · rename_i h0 h1 h2
        have hg : g = p ∨ g = p + 1 ∨ g = p + 2 := by
          clear h0 h1 h2; revert p g; decide
        rcases hg with rfl | rfl | rfl
        · simpa using h0
        · simpa using h1
        · simpa using h2

/-- With something stale a RECOMPUTE takes one stale row-word (R90). -/
theorem recompute_cases (p : RowGroup) (s : State) :
    (∃ g, s.stale[g] = true ∧ recompute p s = recomputeWord g s) ∨
      ((∀ g : RowGroup, s.stale[g] = false) ∧ recompute p s = s) := by
  unfold recompute
  cases h : chooseStale p s.stale with
  | some g => exact .inl ⟨g, chooseStale_stale h, rfl⟩
  | none => exact .inr ⟨chooseStale_none h, rfl⟩

/-- Nothing is stale exactly when the count is 0. -/
theorem staleCount_eq_zero {st : Vector Bool 3} : staleCount st = 0 ↔ ∀ g : RowGroup, st[g] = false := by
  obtain ⟨⟨l⟩, hl⟩ := st
  match l, hl with
  | [a, b, c], _ => revert a b c; decide

/-- Recomputing a stale row-word leaves one less stale. -/
theorem staleCount_set {st : Vector Bool 3} {g : RowGroup} (h : st[g] = true) :
    staleCount (st.set g.val false) = staleCount st - 1 := by
  obtain ⟨⟨l⟩, hl⟩ := st
  match l, hl with
  | [a, b, c], _ => revert a b c g; decide

/-- A stale row-word makes the count positive. -/
theorem staleCount_pos {st : Vector Bool 3} {g : RowGroup} (h : st[g] = true) : staleCount st ≠ 0 := by
  intro h0
  rw [staleCount_eq_zero.mp h0 g] at h
  cases h

/-- The stale set with no element is the empty one. -/
theorem stale_eq_noneStale {st : Vector Bool 3} (h : ∀ g : RowGroup, st[g] = false) : st = noneStale := by
  obtain ⟨⟨l⟩, hl⟩ := st
  match l, hl with
  | [a, b, c], _ => revert a b c; decide

/-- Three RECOMPUTEs from an all-stale block leave every row-word packed and nothing stale, whatever the order (R90). -/
theorem recompute_three (p q r : RowGroup) (s : State) (h : s.stale = allStale) :
    recompute r (recompute q (recompute p s)) =
      { s with rw := packAll s.cfg.toCfgData s.px, stale := noneStale } := by
  have key : ∀ (p q r : RowGroup) (w : Vector Word 3) (f : RowGroup → Word),
      ∀ a, chooseStale p allStale = some a → ∀ b, chooseStale q (allStale.set a.val false) = some b →
        ∀ c, chooseStale r ((allStale.set a.val false).set b.val false) = some c →
          (((w.set a.val (f a)).set b.val (f b)).set c.val (f c)) = Vector.ofFn f ∧
            ((allStale.set a.val false).set b.val false).set c.val false = noneStale := by
    intro p q r w f a ha b hb c hc
    have hd : a ≠ b ∧ a ≠ c ∧ b ≠ c ∧ ((allStale.set a.val false).set b.val false).set c.val false = noneStale := by
      clear w f; revert ha hb hc; revert p q r a b c; decide
    obtain ⟨hab, hac, hbc, hs⟩ := hd
    refine ⟨?_, hs⟩
    ext1 i hi
    have hcase : i = a.val ∨ i = b.val ∨ i = c.val := by
      have h1 : a.val ≠ b.val := fun e => hab (Fin.ext e)
      have h2 : a.val ≠ c.val := fun e => hac (Fin.ext e)
      have h3 : b.val ≠ c.val := fun e => hbc (Fin.ext e)
      omega
    have h1 : a.val ≠ b.val := fun e => hab (Fin.ext e)
    have h2 : a.val ≠ c.val := fun e => hac (Fin.ext e)
    have h3 : b.val ≠ c.val := fun e => hbc (Fin.ext e)
    rcases hcase with rfl | rfl | rfl
    · simp [h1.symm, h2.symm]
    · simp [h3.symm]
    · simp
  have hall : ∀ p : RowGroup, ∃ a, chooseStale p allStale = some a := by decide
  obtain ⟨a, ha⟩ := hall p
  have hall2 : ∀ (a q : RowGroup), ∃ b, chooseStale q (allStale.set a.val false) = some b := by decide
  obtain ⟨b, hb⟩ := hall2 a q
  have hall3 : ∀ (a q b r : RowGroup), chooseStale q (allStale.set a.val false) = some b →
      ∃ c, chooseStale r ((allStale.set a.val false).set b.val false) = some c := by decide
  obtain ⟨c, hc⟩ := hall3 a q b r hb
  have hk := key p q r s.rw (fun g => pack s.cfg.toCfgData g s.px) a ha b hb c hc
  simp only [recompute, h, ha, recomputeWord, hb, hc]
  rw [← hk.2, show packAll s.cfg.toCfgData s.px = _ from hk.1.symm]

/-! ### Turns -/

/-- What a turn can lead to: a micro-step of port M, a tick, or a write of the environment. -/
theorem takeTurn_next {t : Turn} {s s' : State} (h : takeTurn t s = .next s') :
    (∃ p, t = .main p ∧ s' = mainTurn p s) ∨ (t = .tick ∧ s' = emitStep s) ∨
      (∃ v, t = .foreign v ∧ s' = foreignWrite v s) ∨ (∃ v, t = .ledWrite v ∧ s' = ledWrite v s) := by
  cases t <;> simp only [takeTurn, Host.Outcome.next.injEq, reduceCtorEq] at h <;> simp [h]

/-- What a lawful turn does, as a function. -/
def playTurn (t : Turn) (s : State) : State :=
  match t with
  | .main p => mainTurn p s
  | .tick => emitStep s
  | .foreign v => foreignWrite v s
  | .ledWrite v => ledWrite v s
  | .portTCommand _ => s
  | .construct => s

/-- What a list of lawful turns does. -/
def play (ts : List Turn) (s : State) : State := ts.foldl (fun s t => playTurn t s) s

/-- A lawful turn always answers. -/
theorem takeTurn_lawful {t : Turn} (s : State) (h : t.lawful = true) : takeTurn t s = .next (playTurn t s) := by
  cases t <;> first | rfl | cases h

/-- An unlawful turn never answers. -/
theorem takeTurn_next_lawful {t : Turn} {s s' : State} (h : takeTurn t s = .next s') :
    t.lawful = true ∧ s' = playTurn t s := by
  cases t <;> simp only [takeTurn, Host.Outcome.next.injEq, reduceCtorEq] at h <;> exact ⟨rfl, h.symm⟩

@[simp] theorem play_nil (s : State) : play [] s = s := rfl

@[simp] theorem play_cons (t : Turn) (ts : List Turn) (s : State) : play (t :: ts) s = play ts (playTurn t s) := rfl

theorem play_append (ts us : List Turn) (s : State) : play (ts ++ us) s = play us (play ts s) := by
  simp [play, List.foldl_append]

/-- What every lawful turn keeps, `play` keeps. -/
theorem play_induct {P : State → Prop} (hturn : ∀ t s, P s → P (playTurn t s)) :
    ∀ (ts : List Turn) (s : State), P s → P (play ts s) := by
  intro ts
  induction ts with
  | nil => exact fun s h => h
  | cons t ts ih => exact fun s h => ih _ (hturn t s h)

@[simp] theorem playTurn_cfg (t : Turn) (s : State) : (playTurn t s).cfg = s.cfg := by cases t <;> simp [playTurn]
@[simp] theorem playTurn_constructed (t : Turn) (s : State) : (playTurn t s).constructed = s.constructed := by
  cases t <;> simp [playTurn]
@[simp] theorem playTurn_portM (t : Turn) (s : State) : (playTurn t s).portM = s.portM := by cases t <;> simp [playTurn]
@[simp] theorem playTurn_env (t : Turn) (s : State) : (playTurn t s).env = s.env := by cases t <;> simp [playTurn]

@[simp] theorem play_cfg (ts : List Turn) (s : State) : (play ts s).cfg = s.cfg := by
  induction ts generalizing s <;> simp [*]
@[simp] theorem play_constructed (ts : List Turn) (s : State) : (play ts s).constructed = s.constructed := by
  induction ts generalizing s <;> simp [*]
@[simp] theorem play_portM (ts : List Turn) (s : State) : (play ts s).portM = s.portM := by
  induction ts generalizing s <;> simp [*]
@[simp] theorem play_env (ts : List Turn) (s : State) : (play ts s).env = s.env := by
  induction ts generalizing s <;> simp [*]

@[simp] theorem mainCount_nil : mainCount [] = 0 := rfl
@[simp] theorem mainCount_cons (t : Turn) (ts : List Turn) :
    mainCount (t :: ts) = mainCount ts + if t.isMain then 1 else 0 := List.countP_cons
@[simp] theorem mainCount_append (ts us : List Turn) : mainCount (ts ++ us) = mainCount ts + mainCount us :=
  List.countP_append
@[simp] theorem mainCount_replicate (k : Nat) (p : RowGroup) : mainCount (List.replicate k (.main p)) = k := by
  simp [mainCount, List.countP_replicate, Turn.isMain]
@[simp] theorem tickCount_nil : tickCount [] = 0 := rfl
@[simp] theorem tickCount_cons (t : Turn) (ts : List Turn) :
    tickCount (t :: ts) = tickCount ts + if t.isTick then 1 else 0 := List.countP_cons
@[simp] theorem tickCount_append (ts us : List Turn) : tickCount (ts ++ us) = tickCount ts + tickCount us :=
  List.countP_append
@[simp] theorem tickCount_replicate_main (k : Nat) (p : RowGroup) : tickCount (List.replicate k (.main p)) = 0 := by
  simp [tickCount, List.countP_replicate, Turn.isTick]

/-- Only port M's turns use up micro-steps. -/
theorem playTurn_todo (t : Turn) (s : State) :
    (playTurn t s).todo = s.todo.drop (if t.isMain then 1 else 0) := by
  cases t <;> simp [playTurn, Turn.isMain]

theorem play_todo (ts : List Turn) (s : State) : (play ts s).todo = s.todo.drop (mainCount ts) := by
  induction ts generalizing s with
  | nil => simp
  | cons t ts ih => simp [ih, playTurn_todo, List.drop_drop, Nat.add_comm]

/-- The rest of a command with nothing between is as many turns of port M. -/
theorem finish_eq_play (n : Nat) (s : State) : finish n s = play (List.replicate n (.main 0)) s := by
  induction n generalizing s with
  | zero => rfl
  | succ n ih => simp [finish, ih, List.replicate_succ, playTurn]

/-- With no micro-step left, no turn is taken. -/
theorem runTurns_done {s : State} (ts : List Turn) (h : s.todo = []) : runTurns ts s = .next (setEnv ts s) := by
  cases ts with
  | nil => simp [runTurns, h, finish]
  | cons t ts => simp [runTurns, h]

/-- With a micro-step left, a lawful turn at the head of the schedule is taken. -/
theorem runTurns_cons {s : State} {t : Turn} (ts : List Turn) (h : s.todo ≠ []) (ht : t.lawful = true) :
    runTurns (t :: ts) s = runTurns ts (playTurn t s) := by
  cases hm : s.todo with
  | nil => exact absurd hm h
  | cons m ms => simp [runTurns, hm, takeTurn_lawful s ht]

/-- Running a command to its end: some turns `used` of the schedule happen, all lawful, and, if the schedule ends
first, `k` more turns of port M; together they use up exactly the command's micro-steps. -/
theorem runTurns_next {ts : List Turn} {s t : State} (h : runTurns ts s = .next t) :
    ∃ used k, ts = used ++ t.env ∧ (k = 0 ∨ t.env = []) ∧ (∀ u ∈ used, u.lawful = true) ∧
      mainCount used + k = s.todo.length ∧
      t = setEnv t.env (play (used ++ List.replicate k (.main 0)) s) := by
  induction ts generalizing s with
  | nil =>
    simp only [runTurns, Host.Outcome.next.injEq] at h
    refine ⟨[], s.todo.length, ?_, .inr ?_, ?_, ?_, ?_⟩ <;> subst h <;> simp [finish_eq_play]
  | cons u ts ih =>
    unfold runTurns at h
    split at h
    · rename_i hnil
      cases h
      exact ⟨[], 0, rfl, .inl rfl, by simp, by simp [hnil], rfl⟩
    · rename_i m ms hcons
      split at h
      · rename_i s' hs'
        obtain ⟨hl, rfl⟩ := takeTurn_next_lawful hs'
        obtain ⟨used, k, h1, h2, h3, h4, h5⟩ := ih h
        refine ⟨u :: used, k, congrArg (u :: ·) h1, h2, ?_, ?_, h5⟩
        · simpa [hl] using h3
        · rw [playTurn_todo, List.length_drop] at h4
          rw [mainCount_cons]
          have hlen : s.todo.length = ms.length + 1 := by simp [hcons]
          split at h4
          · rename_i hm; rw [if_pos hm]; omega
          · rename_i hm; rw [if_neg hm]; omega
      · cases h
      · cases h

/-- After it, no micro-step is left. -/
theorem runTurns_todo {ts : List Turn} {s t : State} (h : runTurns ts s = .next t) : t.todo = [] := by
  obtain ⟨used, k, -, -, -, hk, ht⟩ := runTurns_next h
  rw [ht]
  simp [play_todo, hk]

/-- A lawful schedule lets every command run to its end (R119). -/
theorem runTurns_lawful {ts : List Turn} (s : State) (h : ∀ t ∈ ts, t.lawful = true) :
    ∃ t, runTurns ts s = .next t := by
  induction ts generalizing s with
  | nil => exact ⟨_, rfl⟩
  | cons u ts ih =>
    unfold runTurns
    split
    · exact ⟨_, rfl⟩
    · rw [takeTurn_lawful s (h u List.mem_cons_self)]
      exact ih _ fun t ht => h t (List.mem_cons_of_mem _ ht)

/-- With nothing but turns of port M ahead, a command is its micro-steps in a row. -/
theorem runTurns_uninterrupted {ts : List Turn} {s : State}
    (h : ∀ t ∈ ts.take s.todo.length, t.isMain = true) :
    ∃ ps : List RowGroup, ps.length = s.todo.length ∧
      runTurns ts s = .next (setEnv (ts.drop s.todo.length) (ps.foldl (fun s p => mainTurn p s) s)) := by
  have fin : ∀ (n : Nat) (s : State), finish n s = (List.replicate n 0).foldl (fun s p => mainTurn p s) s := by
    intro n
    induction n with
    | zero => exact fun _ => rfl
    | succ n ih => intro s; simp [finish, ih, List.replicate_succ]
  induction ts generalizing s with
  | nil => exact ⟨List.replicate s.todo.length 0, by simp, by simp [runTurns, fin]⟩
  | cons u ts ih =>
    unfold runTurns
    cases hm : s.todo with
    | nil => exact ⟨[], rfl, rfl⟩
    | cons m ms =>
      have hu : u.isMain = true := h u (by simp [hm])
      cases u <;> try cases hu
      rename_i p
      obtain ⟨ps, hp1, hp2⟩ := @ih (mainTurn p s) (by
        intro t ht
        refine h t ?_
        simp only [mainTurn_todo, hm, List.tail_cons] at ht
        simp [hm, ht])
      simp only [mainTurn_todo, hm, List.tail_cons] at hp1 hp2
      exact ⟨p :: ps, by simp [hp1], by simp [takeTurn, hp2]⟩

/-! ### Issuing -/

/-- A command issued on a reset, quiescent block runs to its end. -/
theorem issue_ready (ms : List Micro) {s : State} (h : s.Ready) : issue ms s = runTurns s.env (setTodo ms s) := by
  simp [issue, h.1, h.2]

/-- A command that answers was issued on a reset, quiescent block. -/
theorem issue_next {ms : List Micro} {s t : State} (h : issue ms s = .next t) :
    s.Ready ∧ runTurns s.env (setTodo ms s) = .next t := by
  unfold issue at h
  split at h
  · rename_i hc
    cases ht : s.todo with
    | nil => simp only [ht] at h; exact ⟨⟨hc, ht⟩, h⟩
    | cons _ _ => simp [ht] at h
  · cases h

/-- A command without micro-steps changes nothing (R91). -/
theorem issue_nil {s : State} (h : s.Ready) : issue [] s = .next s := by
  obtain ⟨hc, ht⟩ := h
  obtain ⟨cfg, px, rw, cur, stale, out, todo, constructed, portM, env, responses, events⟩ := s
  cases ht; cases hc
  cases env <;> rfl

/-- A mutator's micro-steps with nothing between them (R51): the buffer written, every row-word packed, nothing stale. -/
theorem foldl_mainTurn_mutator (b : BufferWrite) (ms : List Micro) (ps : List RowGroup) (s : State) (h : 4 ≤ ps.length) :
    ps.foldl (fun s p => mainTurn p s) (setTodo (mutatorMicros b ++ ms) s) =
      (ps.drop 4).foldl (fun s p => mainTurn p s)
        (setTodo ms { s with
          px := applyWrite b s.px, rw := packAll s.cfg.toCfgData (applyWrite b s.px), stale := noneStale }) := by
  match ps, h with
  | p0 :: p1 :: p2 :: p3 :: ps, _ =>
    have hr := recompute_three p1 p2 p3 (writeBuffer b s) rfl
    simp only [mutatorMicros, List.cons_append, List.nil_append, List.foldl_cons, mainTurn_setTodo_cons, runMicro,
      List.drop_succ_cons, List.drop_zero, hr]
    rfl

/-- A mutator that nothing interrupts (R51): the buffer written, every row-word packed, nothing stale, all else as it
was. -/
theorem issue_mutator (b : BufferWrite) {s : State} (hr : s.Ready) (hu : s.Uninterrupted 4) :
    issue (mutatorMicros b) s = .next { s with
      px := applyWrite b s.px, rw := packAll s.cfg.toCfgData (applyWrite b s.px), stale := noneStale,
      env := s.env.drop 4 } := by
  obtain ⟨ps, hl, h⟩ := @runTurns_uninterrupted s.env (setTodo (mutatorMicros b) s) hu
  have hl : ps.length = 4 := hl
  have hf := foldl_mainTurn_mutator b [] ps s (by omega)
  rw [List.append_nil, List.drop_of_length_le (by omega : ps.length ≤ 4)] at hf
  rw [issue_ready _ hr, h, hf]
  congr 1
  exact State.ext rfl rfl rfl rfl rfl rfl hr.2.symm rfl rfl rfl rfl rfl

end Sys2Proof.Machine
end

