-- ==== Sys2Proof/Laws/Play.lean ====
section
/-! SUPPORT. What a stretch of turns does to each component: the rotation and the output history, the buffer and the
row-words under a mutator, the responses, the output bits, and the invariant. -/

namespace Sys2Proof.Machine

/-! ### Rotation and emissions -/

theorem add_one_eq_rotate (c : RowGroup) : c + 1 = rotate c 1 := by revert c; decide

@[simp] theorem rotate_zero (c : RowGroup) : rotate c 0 = c := by revert c; decide

@[simp] theorem rotate_three (c : RowGroup) : rotate c 3 = c := by revert c; decide

theorem rotate_rotate (c : RowGroup) (m n : Nat) : rotate (rotate c m) n = rotate c (m + n) := by
  apply Fin.ext; simp only [rotate]; omega

@[simp] theorem emissions_nil (k : Word) : emissions k [] = [] := rfl

@[simp] theorem emissions_cons (k w : Word) (ws : List Word) :
    emissions k (w :: ws) = .clr k :: .set w :: emissions k ws := rfl

theorem emissions_append (k : Word) (vs ws : List Word) :
    emissions k (vs ++ ws) = emissions k vs ++ emissions k ws := List.flatMap_append

/-- How many EMITSTEPs a list of micro-steps holds. -/
def emitCount (ms : List Micro) : Nat := ms.countP (· == .emit)

@[simp] theorem emitCount_nil : emitCount [] = 0 := rfl

@[simp] theorem emitCount_cons (m : Micro) (ms : List Micro) :
    emitCount (m :: ms) = emitCount ms + if m == .emit then 1 else 0 := List.countP_cons

/-- A turn emits the row-word at the cursor and moves the cursor, or does neither. -/
theorem playTurn_emits (t : Turn) (s : State) :
    ((playTurn t s).cur = rotate s.cur 1 ∧
        (playTurn t s).events = s.events ++ emissions s.cfg.ledMask [s.rw[s.cur]] ∧
        emitCount (playTurn t s).todo + 1 = emitCount s.todo + (if t.isTick then 1 else 0)) ∨
      ((playTurn t s).cur = s.cur ∧ (playTurn t s).events = s.events ∧
        emitCount (playTurn t s).todo = emitCount s.todo + (if t.isTick then 1 else 0)) := by
  cases t with
  | main p =>
    cases hm : s.todo with
    | nil => right; simp [playTurn, mainTurn_of_nil hm, hm, Turn.isTick]
    | cons m ms =>
      simp only [playTurn, mainTurn_of_todo hm, Turn.isTick]
      cases m with
      | emit => left; simp [runMicro, add_one_eq_rotate]
      | recompute => right; simp [runMicro]
      | write b => right; simp [runMicro]
      | respond c => right; simp [runMicro]
  | tick => left; simp [playTurn, add_one_eq_rotate, Turn.isTick]
  | foreign v => right; simp [playTurn, Turn.isTick]
  | ledWrite v => right; simp [playTurn, Turn.isTick]
  | portTCommand C => right; simp [playTurn, Turn.isTick]
  | construct => right; simp [playTurn, Turn.isTick]

/-- Over a stretch of turns the output history grows by whole emissions, as many as the cursor moves: one for each tick
and one for each EMITSTEP of the command. Whatever `P` keeps and says of the row-words, each emitted word has. -/
theorem play_emits_within {A : RowGroup → Word → Prop} {P : State → Prop}
    (hturn : ∀ t s, P s → P (playTurn t s)) (hword : ∀ s, P s → ∀ g : RowGroup, A g s.rw[g])
    (ts : List Turn) (s : State) (hs : P s) :
    ∃ ws : List Word, (play ts s).events = s.events ++ emissions s.cfg.ledMask ws ∧
      (play ts s).cur = rotate s.cur ws.length ∧
      emitCount (play ts s).todo + ws.length = emitCount s.todo + tickCount ts ∧
      ∀ (j : Nat) (h : j < ws.length), A (rotate s.cur j) ws[j] := by
  induction ts generalizing s with
  | nil => exact ⟨[], by simp⟩
  | cons t ts ih =>
    obtain ⟨ws, he, hc, hn, hA⟩ := ih (playTurn t s) (hturn t s hs)
    rcases playTurn_emits t s with ⟨h1, h2, h3⟩ | ⟨h1, h2, h3⟩
    · refine ⟨s.rw[s.cur] :: ws, ?_, ?_, ?_, ?_⟩
      · simp [he, h2]
      · simp [hc, h1, rotate_rotate, Nat.add_comm]
      · simp only [play_cons, List.length_cons, tickCount_cons]; omega
      · rintro (_ | j) h
        · simpa using hword s hs s.cur
        · have := hA j (by simpa using h)
          rw [h1, rotate_rotate, Nat.add_comm] at this
          simpa using this
    · refine ⟨ws, ?_, ?_, ?_, ?_⟩
      · simp [he, h2]
      · simp [hc, h1]
      · simp only [play_cons, tickCount_cons]; omega
      · intro j h; rw [← h1]; exact hA j h

/-! ### A mutator's progress -/

/-- Where a mutator that started at `s0` stands: its buffer write is still to do and buffer, row-words and stale set are
untouched, or it is done and each row-word is the old one while stale and the packing of the new buffer after. -/
def MutatorPhase (b : BufferWrite) (s0 t : State) : Prop :=
  t.cfg = s0.cfg ∧
    ((∃ n, t.todo = mutatorMicros b ++ List.replicate n .emit ∧ t.px = s0.px ∧ t.rw = s0.rw) ∨
      (t.px = applyWrite b s0.px ∧
        (∀ g : RowGroup, t.rw[g] =
          if t.stale[g] then s0.rw[g] else pack s0.cfg.toCfgData g (applyWrite b s0.px)) ∧
        ∃ n, t.todo = List.replicate (staleCount t.stale) .recompute ++ List.replicate n .emit))

theorem MutatorPhase.emitStep {b : BufferWrite} {s0 t : State} (h : MutatorPhase b s0 t) :
    MutatorPhase b s0 (emitStep t) := h

theorem MutatorPhase.recomputeWord {b : BufferWrite} {s0 t : State} {g : RowGroup} {ms : List Micro}
    (hcfg : t.cfg = s0.cfg) (hpx : t.px = applyWrite b s0.px) (hg : t.stale[g] = true)
    (hrw : ∀ g : RowGroup, t.rw[g] =
      if t.stale[g] then s0.rw[g] else pack s0.cfg.toCfgData g (applyWrite b s0.px))
    (hms : ∃ n, ms = List.replicate (staleCount t.stale - 1) .recompute ++ List.replicate n .emit) :
    MutatorPhase b s0 (setTodo ms (recomputeWord g t)) := by
  refine ⟨hcfg, .inr ⟨hpx, fun g' => ?_, ?_⟩⟩
  · by_cases hgg : g.val = g'.val
    · obtain rfl : g = g' := Fin.ext hgg
      simp [hcfg, hpx]
    · simpa [Vector.getElem_set, hgg] using hrw g'
  · simpa [staleCount_set hg] using hms

theorem MutatorPhase.playTurn {b : BufferWrite} {s0 : State} (u : Turn) (t : State) (h : MutatorPhase b s0 t) :
    MutatorPhase b s0 (playTurn u t) := by
  cases u with
  | tick => exact h
  | foreign v => exact h
  | ledWrite v => exact h
  | portTCommand C => exact h
  | construct => exact h
  | main p =>
    show MutatorPhase b s0 (mainTurn p t)
    obtain ⟨hcfg, ⟨n, htodo, hpx, hrw⟩ | ⟨hpx, hrw, n, htodo⟩⟩ := h
    · rw [mainTurn_of_todo htodo]
      refine ⟨hcfg, .inr ⟨by simp [runMicro, hpx], fun g => ?_, n, ?_⟩⟩
      · have : allStale[g] = true := by revert g; decide
        simp only [setTodo_rw, setTodo_stale, runMicro, writeBuffer_rw, writeBuffer_stale, hrw, this, if_true]
      · simp only [setTodo_todo, setTodo_stale, runMicro, writeBuffer_stale]
        rfl
    · cases hk : staleCount t.stale with
      | succ k =>
        rw [hk] at htodo
        rw [mainTurn_of_todo (ms := List.replicate k .recompute ++ List.replicate n .emit) (m := .recompute) (by simpa [List.replicate_succ] using htodo)]
        rcases recompute_cases p t with ⟨g, hg, hr⟩ | ⟨hnone, -⟩
        · simp only [runMicro, hr]
          exact MutatorPhase.recomputeWord hcfg hpx hg hrw ⟨n, by simp [hk]⟩
        · rw [staleCount_eq_zero.mpr hnone] at hk; cases hk
      | zero =>
        rw [hk] at htodo
        cases n with
        | zero => rw [mainTurn_of_nil (by simpa using htodo)]; exact ⟨hcfg, .inr ⟨hpx, hrw, 0, by simpa [hk] using htodo⟩⟩
        | succ n =>
          rw [mainTurn_of_todo (m := .emit) (ms := List.replicate n .emit) (by simpa [List.replicate_succ] using htodo)]
          exact ⟨hcfg, .inr ⟨hpx, hrw, n, by simp [hk, runMicro]⟩⟩

/-- A mutator that ran to its end, under any schedule: the buffer written, every row-word packed, nothing stale (R54). -/
theorem runTurns_mutator {b : BufferWrite} {n : Nat} {ts : List Turn} {s t : State}
    (h : runTurns ts (setTodo (mutatorMicros b ++ List.replicate n .emit) s) = .next t) :
    t.px = applyWrite b s.px ∧ t.rw = packAll s.cfg.toCfgData (applyWrite b s.px) ∧ t.stale = noneStale := by
  have htodo := runTurns_todo h
  obtain ⟨used, k, -, -, -, -, ht⟩ := runTurns_next h
  have hP : MutatorPhase b s t := by
    rw [ht]
    exact play_induct (fun u t h => MutatorPhase.playTurn u t h) _ (setTodo _ s) ⟨rfl, .inl ⟨n, rfl, rfl, rfl⟩⟩
  obtain ⟨-, ⟨n', h1, -⟩ | ⟨hpx, hrw, n', h1⟩⟩ := hP
  · rw [htodo] at h1; cases h1
  · have h0 : staleCount t.stale = 0 := by
      rw [htodo] at h1
      have := congrArg List.length h1
      simp at this
      omega
    have hst := staleCount_eq_zero.mp h0
    refine ⟨hpx, ?_, stale_eq_noneStale hst⟩
    ext1 i hi
    have := hrw ⟨i, hi⟩
    rw [hst ⟨i, hi⟩] at this
    simpa [packAll] using this

/-! ### Commands that do not touch the buffer -/

/-- The micro-step touches neither buffer, row-words nor stale set. -/
def Micro.quiet : Micro → Bool
  | .emit | .respond _ => true
  | .write _ | .recompute => false

theorem playTurn_quiet (u : Turn) (s : State) (h : ∀ m ∈ s.todo, m.quiet = true) :
    (playTurn u s).px = s.px ∧ (playTurn u s).rw = s.rw ∧ (playTurn u s).stale = s.stale := by
  cases u with
  | main p =>
    cases hm : s.todo with
    | nil => simp [playTurn, mainTurn_of_nil hm]
    | cons m ms =>
      have hq := h m (by simp [hm])
      simp only [playTurn, mainTurn_of_todo hm]
      cases m with
      | emit => exact ⟨rfl, rfl, rfl⟩
      | respond c => exact ⟨rfl, rfl, rfl⟩
      | write b => cases hq
      | recompute => cases hq
  | tick => exact ⟨rfl, rfl, rfl⟩
  | foreign v => exact ⟨rfl, rfl, rfl⟩
  | ledWrite v => exact ⟨rfl, rfl, rfl⟩
  | portTCommand C => exact ⟨rfl, rfl, rfl⟩
  | construct => exact ⟨rfl, rfl, rfl⟩

/-- A command without buffer write or RECOMPUTE leaves buffer, row-words and stale set, whatever falls inside it. -/
theorem play_quiet (ts : List Turn) (s : State) (h : ∀ m ∈ s.todo, m.quiet = true) :
    (play ts s).px = s.px ∧ (play ts s).rw = s.rw ∧ (play ts s).stale = s.stale := by
  induction ts generalizing s with
  | nil => exact ⟨rfl, rfl, rfl⟩
  | cons u ts ih =>
    obtain ⟨h1, h2, h3⟩ := playTurn_quiet u s h
    have := ih (playTurn u s) (fun m hm => h m (by rw [playTurn_todo] at hm; exact List.mem_of_mem_drop hm))
    simpa [h1, h2, h3] using this

/-! ### Responses -/

/-- The micro-step responds. -/
def Micro.responds : Micro → Bool
  | .respond _ => true
  | .write _ | .recompute | .emit => false

theorem playTurn_responses (u : Turn) (s : State) (h : ∀ m ∈ s.todo, m.responds = false) :
    (playTurn u s).responses = s.responses := by
  cases u with
  | main p =>
    cases hm : s.todo with
    | nil => simp [playTurn, mainTurn_of_nil hm]
    | cons m ms =>
      have hq := h m (by simp [hm])
      simp only [playTurn, mainTurn_of_todo hm]
      cases m with
      | emit => rfl
      | respond c => cases hq
      | write b => rfl
      | recompute => simp [runMicro]
  | tick => rfl
  | foreign v => rfl
  | ledWrite v => rfl
  | portTCommand C => rfl
  | construct => rfl

/-- A command that is not GETPIXEL adds no response (R68). -/
theorem play_responses (ts : List Turn) (s : State) (h : ∀ m ∈ s.todo, m.responds = false) :
    (play ts s).responses = s.responses := by
  induction ts generalizing s with
  | nil => rfl
  | cons u ts ih =>
    rw [play_cons, ih _ (fun m hm => h m (by rw [playTurn_todo] at hm; exact List.mem_of_mem_drop hm)),
      playTurn_responses u s h]

/-- GETPIXEL's micro-step, whenever it comes, responds from the buffer as it was (R95). -/
theorem play_respond (cell : Option CellIdx) (ts : List Turn) (s : State) (h : s.todo = [.respond cell]) :
    (play ts s).responses = s.responses ++ (if mainCount ts = 0 then [] else [responseOf s cell]) := by
  induction ts generalizing s with
  | nil => simp
  | cons u ts ih =>
    cases u with
    | main p =>
      have hp : playTurn (.main p) s = setTodo [] (respond (responseOf s cell) s) := mainTurn_of_todo h
      rw [play_cons, hp, play_responses _ _ (by simp)]
      simp [Turn.isMain]
    | tick =>
      have := ih (emitStep s) h
      simpa [Turn.isMain, playTurn, responseOf] using this
    | foreign v =>
      have := ih (foreignWrite v s) h
      simpa [Turn.isMain, playTurn, responseOf] using this
    | ledWrite v =>
      have := ih (ledWrite v s) h
      simpa [Turn.isMain, playTurn, responseOf] using this
    | portTCommand C => simpa [Turn.isMain, playTurn] using ih s h
    | construct => simpa [Turn.isMain, playTurn] using ih s h

end Sys2Proof.Machine
end

