-- ==== Sys2Proof/Laws/Commands.lean ====
section
/-! SUPPORT. Each command as the micro-steps it issues, and what one command does under any schedule. -/

namespace Sys2Proof.Machine

/-- The micro-steps a command issues (R92 to R97, R101). -/
def micros : Instr → List Micro
  | .clearImage => clearImageMicros
  | .setPixel row col val => setPixelMicros row col val
  | .togglePixel row col _ => togglePixelMicros row col
  | .getPixel row col _ => getPixelMicros row col
  | .setImage img => setImageMicros img
  | .setColumn col cells => setColumnMicros col cells
  | .refresh => refreshMicros

theorem bufferAfter_clearImage (px : Pixels) : bufferAfter .clearImage px = blank := rfl

theorem bufferAfter_setPixel (row col val : Nat) (px : Pixels) :
    bufferAfter (.setPixel row col val) px =
      if h : InRange row col ∧ ValInRange val then px.set (idx row col) (val == 1) (idx_lt h.1) else px := rfl

theorem bufferAfter_togglePixel (row col val : Nat) (px : Pixels) :
    bufferAfter (.togglePixel row col val) px =
      if h : InRange row col then px.set (idx row col) (!px[idx row col]'(idx_lt h)) (idx_lt h) else px := rfl

theorem bufferAfter_setImage (img : BitVec 25) (px : Pixels) :
    bufferAfter (.setImage img) px = Vector.ofFn fun j => img.getLsbD j.val := rfl

theorem bufferAfter_setColumn (col : Nat) (cells : BitVec 5) (px : Pixels) :
    bufferAfter (.setColumn col cells) px =
      if ColInRange col then
        Vector.ofFn fun j => if j.val % 5 + 1 = col then cells.getLsbD (j.val / 5) else px[j]
      else px := rfl

/-- Every command issues its micro-steps. -/
theorem exec_eq_issue (i : Instr) (s : State) : exec i s = issue (micros i) s := by cases i <;> rfl

theorem cellOf_inRange {row col : Nat} (h : InRange row col) : cellOf row col = some ⟨idx row col, idx_lt h⟩ :=
  dif_pos h

theorem cellOf_outOfRange {row col : Nat} (h : ¬ InRange row col) : cellOf row col = none := dif_neg h

theorem columnOf_inRange {col : Nat} (h : ColInRange col) : columnOf col = some ⟨col - 1, by omega⟩ := dif_pos h

theorem columnOf_outOfRange {col : Nat} (h : ¬ ColInRange col) : columnOf col = none := dif_neg h

/-- The shapes a command's micro-steps have: a mutator (CLEARIMAGE with its three EMITSTEPs), nothing (a soft-fail), one
response, or one EMITSTEP. -/
theorem micros_cases (i : Instr) :
    (mutates i = true ∧ ∃ b, micros i = mutatorMicros b ++ List.replicate (ownEmits i) .emit ∧
        ∀ px, applyWrite b px = bufferAfter i px) ∨
      (mutates i = false ∧ softFails i = true ∧ micros i = [] ∧ ownEmits i = 0 ∧ (∀ px, bufferAfter i px = px) ∧
        ∀ s, commandResponses i s = []) ∨
      (∃ row col val, i = .getPixel row col val ∧ micros i = [.respond (cellOf row col)]) ∨
      (i = .refresh ∧ micros i = [.emit]) := by
  cases i with
  | clearImage =>
    refine .inl ⟨rfl, .image 0, rfl, fun px => ?_⟩
    ext1 j hj
    simp [applyWrite, imageCells, bufferAfter, blank]
  | setPixel row col val =>
    by_cases h : InRange row col
    · by_cases hv : ValInRange val
      · refine .inl ⟨by simp [mutates, softFails, h, hv], .setCell ⟨idx row col, idx_lt h⟩ (val.testBit 0), ?_, fun px => ?_⟩
        · simp [micros, setPixelMicros, cellOf_inRange h, hv, ownEmits]
        · have hb : val.testBit 0 = (val == 1) := by rcases hv with rfl | rfl <;> rfl
          simp only [applyWrite, bufferAfter, dif_pos (And.intro h hv), hb]
      · refine .inr (.inl ⟨by simp [mutates, softFails, hv], by simp [softFails, hv], ?_, rfl, fun px => ?_, fun _ => rfl⟩)
        · simp [micros, setPixelMicros, cellOf_inRange h, hv]
        · exact dif_neg fun hh => hv hh.2
    · refine .inr (.inl ⟨by simp [mutates, softFails, h], by simp [softFails, h], ?_, rfl, fun px => ?_, fun _ => rfl⟩)
      · simp [micros, setPixelMicros, cellOf_outOfRange h]
      · exact dif_neg fun hh => h hh.1
  | togglePixel row col val =>
    by_cases h : InRange row col
    · refine .inl ⟨by simp [mutates, softFails, h], .toggleCell ⟨idx row col, idx_lt h⟩, ?_, fun px => ?_⟩
      · simp [micros, togglePixelMicros, cellOf_inRange h, ownEmits]
      · simp only [applyWrite, bufferAfter, dif_pos h]; rfl
    · refine .inr (.inl ⟨by simp [mutates, softFails, h], by simp [softFails, h], ?_, rfl, fun px => ?_, fun _ => rfl⟩)
      · simp [micros, togglePixelMicros, cellOf_outOfRange h]
      · exact dif_neg h
  | getPixel row col val => exact .inr (.inr (.inl ⟨row, col, val, rfl, rfl⟩))
  | setImage img => exact .inl ⟨rfl, .image img, by simp [micros, setImageMicros, ownEmits], fun px => rfl⟩
  | setColumn col cells =>
    by_cases h : ColInRange col
    · refine .inl ⟨by simp [mutates, softFails, h], .column ⟨col - 1, by omega⟩ cells, ?_, fun px => ?_⟩
      · simp [micros, setColumnMicros, columnOf_inRange h, ownEmits]
      · ext1 j hj
        have : (j % 5 = col - 1) ↔ (j % 5 + 1 = col) := by omega
        simp only [applyWrite, columnCells, bufferAfter, if_pos h, Vector.getElem_ofFn, this]
    · refine .inr (.inl ⟨by simp [mutates, softFails, h], by simp [softFails, h], ?_, rfl, fun px => ?_, fun _ => rfl⟩)
      · simp [micros, setColumnMicros, columnOf_outOfRange h]
      · exact if_neg h
  | refresh => exact .inr (.inr (.inr ⟨rfl, rfl⟩))

/-- At most seven micro-steps (R105, R119). -/
theorem micros_length_le (i : Instr) : (micros i).length ≤ 7 := by
  rcases micros_cases i with ⟨-, b, h, -⟩ | ⟨-, -, h, -⟩ | ⟨row, col, val, -, h⟩ | ⟨-, h⟩ <;> rw [h]
  · simp only [mutatorMicros, List.length_append, List.length_cons, List.length_nil, List.length_replicate]
    cases i <;> simp [ownEmits]
  · simp
  · simp
  · simp

/-- What a command that answers did: it was issued on a reset, quiescent block, and turns `used` of the schedule, all
lawful, and `k` more of port M if the schedule ended, were exactly its micro-steps. -/
theorem exec_next {i : Instr} {s t : State} (h : exec i s = .next t) :
    s.Ready ∧ t.todo = [] ∧ runTurns s.env (setTodo (micros i) s) = .next t ∧
      ∃ used k, s.env = used ++ t.env ∧ (∀ u ∈ used, u.lawful = true) ∧ mainCount used + k = (micros i).length ∧
        t = setEnv t.env (play (used ++ List.replicate k (.main 0)) (setTodo (micros i) s)) := by
  rw [exec_eq_issue] at h
  obtain ⟨hr, hrun⟩ := issue_next h
  obtain ⟨used, k, h1, -, h3, h4, h5⟩ := runTurns_next hrun
  exact ⟨hr, runTurns_todo hrun, hrun, used, k, h1, h3, h4, h5⟩

/-- A command on a reset, quiescent block under a lawful schedule answers. -/
theorem exec_lawful (i : Instr) {s : State} (hr : s.Ready) (hl : s.Lawful) : ∃ t, exec i s = .next t := by
  rw [exec_eq_issue, issue_ready _ hr]
  exact runTurns_lawful _ hl

/-- A command whose first turn of port M comes at once and is its only micro-step. -/
theorem issue_single (m : Micro) (p : RowGroup) (ts : List Turn) {s : State} (hr : s.Ready) (he : s.env = .main p :: ts) :
    issue [m] s = .next (setEnv ts (runMicro m p s)) := by
  have hp : playTurn (.main p) (setTodo [m] s) = runMicro m p s := by
    show mainTurn p (setTodo [m] s) = _
    rw [mainTurn_setTodo_cons]
    have : (runMicro m p s).todo = [] := by simp [hr.2]
    rw [← this]; rfl
  rw [issue_ready _ hr, he, runTurns_cons _ (by simp) rfl, hp, runTurns_done _ (by simp [hr.2])]

/-- A refresh step from either port is one EMITSTEP (R100). -/
theorem refreshBy_ready (viaTick : Bool) {s : State} (hr : s.Ready) : refreshBy viaTick s = .next (emitStep s) := by
  cases viaTick with
  | true =>
    simp only [refreshBy, if_true, step, hr.1, hr.2, otherTurn, takeTurn]
    congr 1
    exact State.ext rfl rfl rfl rfl rfl rfl hr.2.symm hr.1.symm rfl rfl rfl rfl
  | false => exact issue_single .emit 0 s.env (s := { s with env := .main 0 :: s.env }) hr rfl

end Sys2Proof.Machine
end

