-- ==== Sys2Proof/Laws/Word.lean ====
section
/-! SUPPORT. The bits of NOT and of the shift inside a width (R13), and how a masked write reads back. -/

namespace Sys2Proof

@[simp] theorem testBit_notW (W m b : Nat) : (notW W m).testBit b = (decide (b < W) && !m.testBit b) := by
  simp only [notW, Nat.testBit_xor, Nat.testBit_two_pow_sub_one, Nat.testBit_mod_two_pow]
  cases decide (b < W) <;> cases m.testBit b <;> rfl

@[simp] theorem testBit_shlW (W a n b : Nat) :
    (shlW W a n).testBit b = (decide (b < W) && (decide (n ≤ b) && a.testBit (b - n))) := by
  simp only [shlW, Nat.testBit_mod_two_pow, Nat.testBit_shiftLeft, ge_iff_le]

/-- A number is below 2^W when it has no bit from W on. -/
theorem lt_two_pow_of_testBit {x W : Nat} (h : ∀ b, W ≤ b → x.testBit b = false) : x < 2 ^ W :=
  Nat.lt_pow_two_of_testBit x h

theorem testBit_of_lt {x W b : Nat} (h : x < 2 ^ W) (hb : W ≤ b) : x.testBit b = false :=
  Nat.testBit_lt_two_pow (Nat.lt_of_lt_of_le h (Nat.pow_le_pow_right (by decide) hb))

theorem notW_lt (W m : Nat) : notW W m < 2 ^ W := lt_two_pow_of_testBit fun b hb => by simp [Nat.not_lt.mpr hb]

/-- A value without a 1 outside a mask, both W bits wide: bit by bit. -/
theorem testBit_of_confined {W r m b : Nat} (hr : r < 2 ^ W) (h : r &&& notW W m = 0) (hb : r.testBit b = true) :
    m.testBit b = true := by
  have hlt : b < W := by
    rcases Nat.lt_or_ge b W with hlt | hge
    · exact hlt
    · rw [testBit_of_lt hr hge] at hb; cases hb
  have h0 := congrArg (Nat.testBit · b) h
  simpa [hb, hlt] using h0

/-! ### Masked writes: what the bits inside and outside the mask are afterwards -/

/-- Clearing the mask and setting a value that lies inside it leaves that value inside the mask (R78). -/
theorem setInside_and_mask {W o r m : Nat} (hr : r < 2 ^ W) (h : r &&& notW W m = 0) :
    ((o &&& notW W m) ||| r) &&& m = r := by
  refine Nat.eq_of_testBit_eq fun b => ?_
  have hb := testBit_of_confined (b := b) hr h
  simp only [Nat.testBit_and, Nat.testBit_or, testBit_notW]
  cases hrb : r.testBit b <;> cases hmb : m.testBit b <;> simp_all

/-- Clearing the mask and setting a value that lies inside it leaves the bits outside the mask (R27, R78). -/
theorem setInside_and_notW {W o r m : Nat} (h : r &&& notW W m = 0) :
    ((o &&& notW W m) ||| r) &&& notW W m = o &&& notW W m := by
  rw [Nat.and_or_distrib_right, h, Nat.or_zero, Nat.and_assoc, Nat.and_self]

theorem mask_and_notW (W v m : Nat) : (v &&& m) &&& notW W m = 0 := by
  refine Nat.eq_of_testBit_eq fun b => ?_
  simp only [Nat.testBit_and, testBit_notW, Nat.zero_testBit]
  cases m.testBit b <;> simp

theorem notW_and_mask (W v m : Nat) : (v &&& notW W m) &&& m = 0 := by
  refine Nat.eq_of_testBit_eq fun b => ?_
  simp only [Nat.testBit_and, testBit_notW, Nat.zero_testBit]
  cases m.testBit b <;> simp

/-- Putting `v` inside the mask and keeping `o` outside it, or the other way round: the part inside the mask (R27, R139). -/
theorem merge_and_mask (W v o m : Nat) :
    ((o &&& notW W m) ||| (v &&& m)) &&& m = v &&& m ∧ ((v &&& m) ||| (o &&& notW W m)) &&& m = v &&& m := by
  constructor <;> rw [Nat.and_or_distrib_right, notW_and_mask, Nat.and_assoc, Nat.and_self] <;> simp

/-- The part outside the mask (R27, R139). -/
theorem merge_and_notW (W v o m : Nat) :
    ((o &&& notW W m) ||| (v &&& m)) &&& notW W m = o &&& notW W m ∧
      ((v &&& m) ||| (o &&& notW W m)) &&& notW W m = o &&& notW W m := by
  constructor <;> rw [Nat.and_or_distrib_right, mask_and_notW, Nat.and_assoc, Nat.and_self] <;> simp

end Sys2Proof
end

