-- ==== Sys2Proof/Laws/Pack.lean ====
section
/-! SUPPORT. What the bits of a packed row-word are (R72). -/

namespace Sys2Proof.Machine

/-- A slot contributes the value of its cell at its position when that lies inside the width, and nothing elsewhere. -/
theorem slotBits_testBit (c : CfgData) (g : RowGroup) (px : Pixels) (k : Slot) (b : Nat) :
    (slotBits c g px k).testBit b =
      match c.cellAt g k with
      | none => false
      | some i => decide (b < c.W) && (decide (b = c.posAt g k) && px[i]) := by
  unfold slotBits
  cases c.cellAt g k with
  | none => simp
  | some i =>
    simp only [testBit_shlW, Nat.testBit_bool_toNat]
    congr 1
    by_cases h : b = c.posAt g k
    · simp [h]
    · by_cases hle : c.posAt g k ≤ b
      · have : b - c.posAt g k ≠ 0 := by omega
        simp [h, this]
      · simp [h, hle]

/-- XORing a list of words in reaches each bit by itself. -/
theorem foldl_xor_testBit {α : Type} (f : α → Word) (l : List α) (w : Word) (b : Nat) :
    (l.foldl (fun w a => w ^^^ f a) w).testBit b = l.foldl (fun v a => v ^^ (f a).testBit b) (w.testBit b) := by
  induction l generalizing w with
  | nil => rfl
  | cons a l ih => simp [ih]

/-- A bit of a row-word: the base mask's bit with every slot's bit XORed in (R72). -/
theorem pack_testBit (c : CfgData) (g : RowGroup) (px : Pixels) (b : Nat) :
    (pack c g px).testBit b =
      (List.finRange 9).foldl (fun v k => v ^^ (slotBits c g px k).testBit b) ((c.baseAt g).testBit b) :=
  foldl_xor_testBit _ _ _ _

/-- XORing false in changes nothing. -/
theorem foldl_bxor_false {α : Type} (f : α → Bool) (l : List α) (v : Bool) (h : ∀ a ∈ l, f a = false) :
    l.foldl (fun v a => v ^^ f a) v = v := by
  induction l generalizing v with
  | nil => rfl
  | cons a l ih =>
    simp only [List.foldl_cons, h a List.mem_cons_self, Bool.xor_false]
    exact ih v fun x hx => h x (List.mem_cons_of_mem _ hx)

/-- When only `a` of a list without repeats can contribute, the XOR of the list is its contribution. -/
theorem foldl_bxor_single {α : Type} (f : α → Bool) (l : List α) (v : Bool) (a : α)
    (hnd : l.Nodup) (ha : a ∈ l) (h : ∀ x ∈ l, x ≠ a → f x = false) :
    l.foldl (fun v x => v ^^ f x) v = (v ^^ f a) := by
  induction l generalizing v with
  | nil => cases ha
  | cons x l ih =>
    obtain ⟨hx, hnd⟩ := List.nodup_cons.mp hnd
    rcases List.mem_cons.mp ha with rfl | hmem
    · exact foldl_bxor_false f l _ fun y hy => h y (List.mem_cons_of_mem _ hy) fun e => hx (e ▸ hy)
    · have hxa : x ≠ a := fun e => hx (e ▸ hmem)
      simp only [List.foldl_cons, h x List.mem_cons_self hxa, Bool.xor_false]
      exact ih v hnd hmem fun y hy => h y (List.mem_cons_of_mem _ hy)

/-- A bit at which no occupied slot lies is the base mask's. -/
theorem pack_testBit_of_no_slot (c : CfgData) (g : RowGroup) (px : Pixels) (b : Nat)
    (h : ∀ k : Slot, c.cellAt g k ≠ none → c.posAt g k ≠ b) :
    (pack c g px).testBit b = (c.baseAt g).testBit b := by
  rw [pack_testBit]
  refine foldl_bxor_false _ _ _ fun k _ => ?_
  have hk := h k
  rw [slotBits_testBit]
  cases hc : c.cellAt g k with
  | none => rfl
  | some i =>
    have : b ≠ c.posAt g k := fun e => hk (by simp [hc]) e.symm
    simp [this]

/-- A bit at which one occupied slot lies is the base mask's bit XOR the slot's cell (K2). -/
theorem pack_testBit_of_slot (c : CfgData) (g : RowGroup) (px : Pixels) (k : Slot) (i : CellIdx)
    (hs : c.Sized) (hK2 : c.K2) (hc : c.cellAt g k = some i) :
    (pack c g px).testBit (c.posAt g k) = ((c.baseAt g).testBit (c.posAt g k) ^^ px[i]) := by
  rw [pack_testBit, foldl_bxor_single _ _ _ k (List.nodup_finRange 9) (List.mem_finRange k)]
  · have hlt := (hs.2.2 g).2 k (by simp [hc])
    rw [slotBits_testBit, hc]; simp [hlt]
  · intro k' _ hne
    rw [slotBits_testBit]
    cases hc' : c.cellAt g k' with
    | none => rfl
    | some j =>
      have : c.posAt g k ≠ c.posAt g k' := fun e =>
        hne (hK2 g k' k (by simp [hc']) (by simp [hc]) e.symm)
      simp [this]

/-- A row-word of a sized configuration is a W-bit value (R23). -/
theorem pack_lt (c : CfgData) (g : RowGroup) (px : Pixels) (hs : c.Sized) : pack c g px < 2 ^ c.W := by
  refine lt_two_pow_of_testBit fun b hb => ?_
  rw [pack_testBit_of_no_slot c g px b fun k hk => by have := (hs.2.2 g).2 k hk; omega]
  exact testBit_of_lt (hs.2.2 g).1 hb

end Sys2Proof.Machine
end

