-- ==== Sys2Proof/Laws/PerInstr.lean ====
section
/-! SUPPORT. For every command: the word `encode` writes for it has the opcode of its row of the opcode table in its
`op` field (R60, R62), whatever its operands. -/

namespace Sys2Proof.Laws.OpcodeField

/-- The `op` field of the command's word is its opcode. -/
def Statement (i : Instr) : Prop := opField (encode i) = opcode i

theorem clearImage : Statement .clearImage := by unfold Statement; decide

theorem setPixel (row col val : Nat) : Statement (.setPixel row col val) := (formatP_fields 0x2 row col val).1

theorem togglePixel (row col val : Nat) : Statement (.togglePixel row col val) := (formatP_fields 0x3 row col val).1

theorem getPixel (row col val : Nat) : Statement (.getPixel row col val) := (formatP_fields 0x4 row col val).1

theorem setImage (img : BitVec 25) : Statement (.setImage img) := (setImage_fields img).1

theorem setColumn (col : Nat) (cells : BitVec 5) : Statement (.setColumn col cells) := (setColumn_fields col cells).1

theorem refresh : Statement .refresh := by unfold Statement; decide

end Sys2Proof.Laws.OpcodeField
end

