-- ==== Sys2Proof/Laws/Sized.lean ====
section
/-! SUPPORT. The operations that write a row-word or the output register keep them W-bit values. -/

namespace Sys2Proof.Machine

theorem ledMask_lt (s : State) : s.cfg.ledMask < 2 ^ s.cfg.W := s.cfg.legal.1.2.1

theorem recomputeWord_sized (g : RowGroup) {s : State} (h : s.Sized) : (recomputeWord g s).Sized := by
  refine ⟨h.1, fun g' => ?_⟩
  by_cases hg : g.val = g'.val
  · simpa [Vector.getElem_set, hg] using pack_lt _ g s.px s.cfg.legal.1
  · simpa [Vector.getElem_set, hg] using h.2 g'

theorem emitStep_sized {s : State} (h : s.Sized) : (emitStep s).Sized :=
  ⟨Nat.or_lt_two_pow (Nat.and_lt_two_pow _ (notW_lt _ _)) (h.2 s.cur), h.2⟩

theorem foreignWrite_sized (v : Word) {s : State} (h : s.Sized) : (foreignWrite v s).Sized :=
  ⟨Nat.or_lt_two_pow (Nat.and_lt_two_pow _ (ledMask_lt s)) (Nat.and_lt_two_pow _ (notW_lt _ _)), h.2⟩

theorem ledWrite_sized (v : Word) {s : State} (h : s.Sized) : (ledWrite v s).Sized :=
  ⟨Nat.or_lt_two_pow (Nat.and_lt_two_pow _ (notW_lt _ _)) (Nat.and_lt_two_pow _ (ledMask_lt s)), h.2⟩

end Sys2Proof.Machine
end

