-- ==== Sys2Proof/Laws/Step.lean ====
section
/-! SUPPORT. What one step can do, said once. -/

namespace Sys2Proof.Machine

/-- When port M goes, no other turn is taken, and its turn is used up. -/
theorem otherTurn_of_portMGoes {s : State} {ts : List Turn} (h : s.PortMGoes ts) :
    otherTurn s = none ∧ useMainTurn s = setEnv ts s := by
  rcases h with ⟨he, rfl⟩ | ⟨p, he⟩
  · exact ⟨by simp [otherTurn, he], by simp only [useMainTurn, he]; rw [← he]; rfl⟩
  · simp [otherTurn, useMainTurn, he]

/-- A quiescent block on which port M goes issues port M's next word. -/
theorem step_of_portMGoes {s : State} {ts : List Turn} (hr : s.Ready) (h : s.PortMGoes ts) :
    step s = issueNext (setEnv ts s) := by
  obtain ⟨h1, h2⟩ := otherTurn_of_portMGoes h
  simp [step, hr.1, hr.2, h1, h2]

/-- A quiescent block whose schedule gives another turn takes it. -/
theorem step_of_otherTurn {s : State} {u : Turn} {ts : List Turn} (hr : s.Ready) (he : s.env = u :: ts)
    (hu : u.isMain = false) : step s = takeTurn u (setEnv ts s) := by
  have h : otherTurn s = some (u, setEnv ts s) := by
    unfold otherTurn
    rw [he]
    cases u with
    | main p => cases hu
    | tick => rfl
    | foreign v => rfl
    | ledWrite v => rfl
    | portTCommand C => rfl
    | construct => rfl
  simp [step, hr.1, hr.2, h]

/-- The ways a step answers: the reset event; a command in progress running to its end; another agent's turn; port M
issuing. -/
theorem step_cases {s t : State} (h : step s = .next t) :
    (s.constructed = false ∧ ∃ ts, s.env = .construct :: ts ∧ t = construct (setEnv ts s)) ∨
      (s.constructed = true ∧ s.todo ≠ [] ∧ runTurns s.env s = .next t) ∨
      (s.Ready ∧ ∃ u ts, s.env = u :: ts ∧ u.isMain = false ∧ takeTurn u (setEnv ts s) = .next t) ∨
      (s.Ready ∧ ∃ ts, s.PortMGoes ts ∧ issueNext (setEnv ts s) = .next t) := by
  cases hc : s.constructed with
  | false =>
    refine .inl ⟨rfl, ?_⟩
    simp only [step, hc, Bool.false_eq_true, if_false, unresetStep] at h
    split at h
    · rename_i ts he; cases h; exact ⟨ts, he, rfl⟩
    · cases h
  | true =>
    cases hm : s.todo with
    | cons m ms => simp only [step, hc, if_true, hm] at h; exact .inr (.inl ⟨rfl, by simp, h⟩)
    | nil =>
      have hr : s.Ready := ⟨hc, hm⟩
      cases he : s.env with
      | nil =>
        have hp : s.PortMGoes [] := .inl ⟨he, rfl⟩
        rw [step_of_portMGoes hr hp] at h
        exact .inr (.inr (.inr ⟨hr, [], hp, h⟩))
      | cons u us =>
        cases hu : u.isMain with
        | true =>
          obtain ⟨p, rfl⟩ : ∃ p, u = .main p := by
            cases u with
            | main p => exact ⟨p, rfl⟩
            | _ => cases hu
          have hp : s.PortMGoes us := .inr ⟨p, he⟩
          rw [step_of_portMGoes hr hp] at h
          exact .inr (.inr (.inr ⟨hr, us, hp, h⟩))
        | false =>
          rw [step_of_otherTurn hr he hu] at h
          exact .inr (.inr (.inl ⟨hr, u, us, rfl, hu, h⟩))

/-- The ways port M's turn answers: nothing to issue, a command, or a reserved opcode. -/
theorem issueNext_cases {s t : State} (h : issueNext s = .next t) :
    (s.portM = [] ∧ t = s) ∨
      ∃ C Cs, s.portM = C :: Cs ∧
        ((∃ i, decode C = .ok i ∧ exec i (setPortM Cs s) = .next t) ∨
          ((∃ op, decode C = .error (.reservedOpcode op)) ∧ t = setPortM Cs s)) := by
  unfold issueNext fetch at h
  cases hp : s.portM with
  | nil => simp only [hp] at h; cases h; exact .inl ⟨rfl, rfl⟩
  | cons C Cs =>
    simp only [hp] at h
    refine .inr ⟨C, Cs, rfl, ?_⟩
    cases hd : decode C with
    | ok i => simp only [hd] at h; exact .inl ⟨i, rfl, h⟩
    | error e =>
      cases e with
      | reservedOpcode op => simp only [hd, reservedNoOp] at h; cases h; exact .inr ⟨⟨op, rfl⟩, rfl⟩

/-- A run of one more step is a step and the rest of the run. -/
theorem run_succ {n : Nat} {s t : State} (h : Host.Core.run core (n + 1) s = .next t) :
    ∃ u, step s = .next u ∧ Host.Core.run core n u = .next t := by
  simp only [Host.Core.run] at h
  cases hs : core.step s with
  | next u => simp only [hs] at h; exact ⟨u, hs, h⟩
  | fault r => cases r
  | refused r => simp only [hs] at h; cases h

/-- What every step keeps, a run keeps. -/
theorem run_induct {P : State → Prop} (hstep : ∀ s t, P s → step s = .next t → P t) :
    ∀ (n : Nat) (s t : State), P s → Host.Core.run core n s = .next t → P t := by
  intro n
  induction n with
  | zero => intro s t hs h; cases h; exact hs
  | succ n ih =>
    intro s t hs h
    obtain ⟨u, hu, hrun⟩ := run_succ h
    exact ih u t (hstep s u hs hu) hrun

end Sys2Proof.Machine
end

