-- ==== Sys2Proof/Tests/Slice0.lean ====
section
/-! SUPPORT. Tests against the vectors of spec/95_test_vectors.md (V<n>), and one named witness for each statement
that has hypotheses. -/

namespace Sys2Proof.Tests

open Sys2Proof Sys2Proof.Machine

/-! ### Boards -/

/-- Tables that break K4, K3, K2, K1 and, its LED_MASK not fitting 15 bits, the types of R7. -/
def badSentinel : CfgData := { Config.refMb1Data with pixelErr := 0x01 }
def badMask : CfgData := { Config.refMb1Data with ledMask := 0xFFE0 }
def badPos : CfgData := { Config.refMb1Data with pos := Vector.replicate 3 (Vector.replicate 9 4) }
def badWidth : CfgData := { Config.refMb1Data with W := 15 }
def badCell : CfgData := { Config.refMb1Data with cell := Vector.replicate 3 (Vector.replicate 9 none) }

/-- A block with the configuration of R75, right after reset, with `out` all 0. -/
def board : State := State.resetWith Config.refMb1 0

/-- A table of width 10: cell 9g+k in slot k of row-group g at bit k, one line (bit 9) outside LED_MASK. -/
def narrowData : CfgData where
  W        := 10
  ledMask  := 0x1FF
  base     := #v[0x155, 0x000, 0x0AA]
  cell     := #v[
    #v[some 0, some 1, some 2, some 3, some 4, some 5, some 6, some 7, some 8],
    #v[some 9, some 10, some 11, some 12, some 13, some 14, some 15, some 16, some 17],
    #v[some 18, some 19, some 20, some 21, some 22, some 23, some 24, none, none]]
  pos      := Vector.replicate 3 #v[0, 1, 2, 3, 4, 5, 6, 7, 8]
  pixelErr := 0x02

theorem test_narrow_is_legal : narrowData.Legal := by decide

def narrow : Cfg := { toCfgData := narrowData, legal := test_narrow_is_legal }

/-- The board with the image bits `img`, its row-words packed, and the cursor at `c`. -/
def showing (img : BitVec 25) (rw : Vector Word 3) (c : RowGroup) : State :=
  { board with px := imageCells img, rw := rw, cur := c }

/-- V21: the cross, with the cursor at 1. -/
def cross : State := showing 0x1151151 #v[0x3AA0, 0x5FB0, 0x9A90] 1

/-- V21, V33: the heart, with the foreign bits of V33 in `out`. -/
def heart : State := { showing 0x0477FEA #v[0x28F0, 0x5E00, 0x8060] 0 with out := 0xA5A5A5A5 }

/-- A mutator stopped after its buffer write and its first RECOMPUTE, that of row-group 2. -/
def busy : State :=
  { board with
    px := imageCells 0x1FFFFFF, rw := #v[0x3FF0, 0x5FF0, 0x8000], stale := #v[true, true, false],
    todo := [.recompute, .recompute] }

/-- A block that has not been reset, holding what it may. -/
def unreset : State := { busy with constructed := false, todo := [.emit] }

/-- What is seen of the next state, if there is one. -/
def seen {α : Type} (o : Host.Outcome State Fault Refusal) (f : State → α) : Option α :=
  match o with
  | .next t => some (f t)
  | .fault _ => none
  | .refused _ => none

/-- The reason of a refusal. -/
def why (o : Host.Outcome State Fault Refusal) : Option Refusal :=
  match o with
  | .next _ => none
  | .fault _ => none
  | .refused r => some r

theorem answers_of_seen {o : Host.Outcome State Fault Refusal} (h : (seen o id).isSome = true) : ∃ t, o = .next t := by
  cases o with
  | next t => exact ⟨t, rfl⟩
  | fault r => cases h
  | refused r => cases h

/-- A schedule of port M alone. -/
def mains (n : Nat) : List Turn := List.replicate n (.main 0)

/-! ### Well-formedness: an ill-formed term for each check -/

theorem test_wf_setPixel_row : (Instr.setPixel 256 1 1).wf = false := by decide
theorem test_wf_setPixel_col : (Instr.setPixel 1 256 1).wf = false := by decide
theorem test_wf_setPixel_val : (Instr.setPixel 1 1 256).wf = false := by decide
theorem test_wf_togglePixel_row : (Instr.togglePixel 256 1 0).wf = false := by decide
theorem test_wf_togglePixel_col : (Instr.togglePixel 1 256 0).wf = false := by decide
theorem test_wf_togglePixel_val : (Instr.togglePixel 1 1 256).wf = false := by decide
theorem test_wf_getPixel_row : (Instr.getPixel 256 1 0).wf = false := by decide
theorem test_wf_getPixel_col : (Instr.getPixel 1 256 0).wf = false := by decide
theorem test_wf_getPixel_val : (Instr.getPixel 1 1 256).wf = false := by decide
theorem test_wf_setColumn_col : (Instr.setColumn 256 0).wf = false := by decide
theorem test_wf_at_the_bound : (Instr.setPixel 255 255 255).wf = true ∧ (Instr.setColumn 255 0b11111).wf = true := by
  decide

/-! ### Decoding: words of V1, V2, V3, written out from the formats of R61 -/

theorem test_decode_clearImage : decode 0b0001_0000_0000_0000_0000_0000_0000_0000#32 = .ok .clearImage := by decide
theorem test_decode_setPixel :
    decode 0b0010_0000_00000010_00000100_00000001#32 = .ok (.setPixel 2 4 1) := by decide
theorem test_decode_togglePixel :
    decode 0b0011_0000_00000011_00000011_00000000#32 = .ok (.togglePixel 3 3 0) := by decide
theorem test_decode_getPixel :
    decode 0b0100_0000_00000000_00000011_00000000#32 = .ok (.getPixel 0 3 0) := by decide
theorem test_decode_setImage :
    decode 0b0101_000_1_0001_0101_0001_0001_0101_0001#32 = .ok (.setImage 0x1151151) := by decide
theorem test_decode_setColumn :
    decode 0b0110_000000000000_00000101_000_00001#32 = .ok (.setColumn 5 0b00001) := by decide
theorem test_decode_refresh : decode 0b0111_0000_0000_0000_0000_0000_0000_0000#32 = .ok .refresh := by decide

/-- V2: unused bits are ignored; `val` of TOGGLEPIXEL and GETPIXEL is kept but has no effect. -/
theorem test_decode_unused_bits :
    decode 0x2F010101 = .ok (.setPixel 1 1 1) ∧ decode 0x1FFFFFFF = .ok .clearImage ∧
    decode 0x7ABCDEF0 = .ok .refresh ∧ decode 0x5E000001 = .ok (.setImage 1) ∧
    decode 0x6FFF03F5 = .ok (.setColumn 3 0b10101) ∧ decode 0x300101FF = .ok (.togglePixel 1 1 255) ∧
    decode 0x400101AA = .ok (.getPixel 1 1 0xAA) := by decide

/-- V3: reserved opcodes. -/
theorem test_decode_reserved :
    decode 0x00000000 = .error (.reservedOpcode 0x0) ∧ decode 0x80000000 = .error (.reservedOpcode 0x8) ∧
    decode 0xF0010101 = .error (.reservedOpcode 0xF) := by decide

/-- V1: the words of assembler lines. -/
theorem test_assemble_lines :
    assembleWord .clearImage = some 0x10000000 ∧ assembleWord (.setPixel 5 5 0) = some 0x20050500 ∧
    assembleWord (.setPixel 255 255 255) = some 0x20FFFFFF ∧ assembleWord (.togglePixel 3 3) = some 0x30030300 ∧
    assembleWord (.getPixel 0 3) = some 0x40000300 ∧ assembleWord .refresh = some 0x70000000 ∧
    assembleWord (.setPixel 256 1 1) = none ∧ assembleWord .tick = none := by decide

/-- V1: image and column operands; the '/' between rows may be left out (R80). -/
theorem test_assemble_cells :
    assembleWord (.setImage "10001/01010/00100/01010/10001".toList) = some 0x51151151 ∧
    assembleWord (.setImage "0101011111111110111000100".toList) = some 0x50477FEA ∧
    assembleWord (.setColumn 3 "10101".toList) = some 0x60000315 ∧
    assembleWord (.setColumn 5 "10000".toList) = some 0x60000501 ∧
    assembleWord (.setColumn 5 "1000".toList) = none := by decide

/-- V1 and the programs of Part 3: lines of text, with blanks and a comment. -/
theorem test_assemble_text :
    assembleText "SETPIXEL 2, 4, 1        ; 0x20020401   cell (2,4) <- 1".toList = some 0x20020401 ∧
    assembleText "SETPIXEL 255, 255, 255".toList = some 0x20FFFFFF ∧ assembleText "GETPIXEL 0, 3".toList = some 0x40000300 ∧
    assembleText "SETCOLUMN 3, 10101".toList = some 0x60000315 ∧ assembleText "REFRESH".toList = some 0x70000000 ∧
    assembleText "TICK".toList = none ∧ assembleText "GETPIXEL 0".toList = none := by decide

theorem test_assemble_text_image :
    assembleText "SETIMAGE 10001/01010/00100/01010/10001".toList = some 0x51151151 := by decide

/-- The words the host numbers as the opcode table does. -/
theorem test_decodeTableWord :
    decodeTableWord 32 0x20010101 = some (.setPixel 1 1 1) ∧ decodeTableWord 32 0x50000000 = some (.setImage 0) ∧
    decodeTableWord 32 0x80000000 = none := by decide

/-- A word placed on the reset block is run by the very next step, whatever the open values are. -/
theorem test_withFetchWord_runs :
    seen (step (State.reset.withFetchWord 32 0x20010101)) (fun t => t.px[0]) = some true ∧
    (seen (step (State.reset.withFetchWord 32 0x10000000)) id).isSome = true := ⟨rfl, rfl⟩

/-! ### Steps -/

/-- V20: cells (1,1) and (5,2). -/
theorem test_setPixel_packs :
    seen (exec (.setPixel 1 1 1) board) (·.rw) = some #v[0x3FE0, 0x5FF0, 0x9FF0] ∧
    seen (exec (.setPixel 5 2 1) board) (·.rw) = some #v[0x3FF0, 0x5BF0, 0x9FF0] := by decide

/-- V31: `val` 2 does not clear a set cell. -/
theorem test_setPixel_soft_fails : seen (exec (.setPixel 1 1 2) cross) id = some cross := by decide

/-- V32: from blank, and back. -/
theorem test_togglePixel_flips :
    seen (exec (.togglePixel 3 3 0) board) (·.rw) = some #v[0x3FF0, 0x5FB0, 0x9FF0] ∧
    seen (exec (.togglePixel 3 3 255) (showing 0x1000 #v[0x3FF0, 0x5FB0, 0x9FF0] 0)) (·.rw) =
      some #v[0x3FF0, 0x5FF0, 0x9FF0] := by decide

/-- V34: in range. -/
theorem test_getPixel_cells :
    seen (exec (.getPixel 5 5 0) cross) (·.responses) = some [0x01] ∧
    seen (exec (.getPixel 5 4 0xAA) cross) (·.responses) = some [0x00] := by decide

/-- V34: out of range. -/
theorem test_getPixel_sentinel :
    seen (exec (.getPixel 0 1 0) cross) (·.responses) = some [0xFF] ∧
    seen (exec (.getPixel 1 6 0) cross) (·.responses) = some [0xFF] := by decide

/-- V21: the heart. -/
theorem test_setImage_heart :
    seen (exec (.setImage 0x0477FEA) board) (fun t => (t.rw, t.cur, t.events)) =
      some (#v[0x28F0, 0x5E00, 0x8060], 0, []) := by decide

/-- V51: three ticks inside, recomputing 2, 0, 1. -/
theorem test_setImage_torn_frame :
    seen (exec (.setImage 0x1FFFFFF) (setEnv [.main 0, .tick, .main 2, .tick, .main 0, .tick, .main 1] board))
        (fun t => (t.events, t.cur, t.out &&& 0xFFF0)) =
      some ([.clr 0xFFF0, .set 0x3FF0, .clr 0xFFF0, .set 0x5FF0, .clr 0xFFF0, .set 0x8000], 0, 0x8000) := by decide

/-- V36: from the blank and the all-ones image (S5). -/
theorem test_setColumn_column :
    seen (exec (.setColumn 3 0b10101) board) (·.rw) = some #v[0x3FD0, 0x5FB0, 0x9FE0] ∧
    seen (exec (.setColumn 3 0b10101) (showing 0x1FFFFFF #v[0x2000, 0x5800, 0x8000] 0)) (·.px) =
      some (imageCells 0b11111_11011_11111_11011_11111) := by decide

/-- V31: columns 0 and 6. -/
theorem test_setColumn_soft_fails :
    seen (exec (.setColumn 0 0) cross) id = some cross ∧ seen (exec (.setColumn 6 0) cross) id = some cross := by decide

/-- V40: from the cross with the cursor at 1. -/
theorem test_clearImage_emits :
    seen (exec .clearImage cross) (fun t => (t.rw, t.cur, t.events, t.out &&& 0xFFF0)) =
      some (#v[0x3FF0, 0x5FF0, 0x9FF0], 1,
        [.clr 0xFFF0, .set 0x5FF0, .clr 0xFFF0, .set 0x9FF0, .clr 0xFFF0, .set 0x3FF0], 0x3FF0) := by decide

/-- V52: one tick after the buffer write and one between the first two EMITSTEPs. -/
theorem test_clearImage_with_ticks :
    seen (exec .clearImage (setEnv [.main 0, .tick, .main 0, .main 0, .main 0, .main 0, .tick] cross))
        (fun t => (t.events, t.cur)) =
      some ([.clr 0xFFF0, .set 0x5FB0, .clr 0xFFF0, .set 0x9FF0, .clr 0xFFF0, .set 0x3FF0,
        .clr 0xFFF0, .set 0x5FF0, .clr 0xFFF0, .set 0x9FF0], 0) := by decide

/-- V33, step 1, as a REFRESH: the foreign bits survive. -/
theorem test_refresh_shows_row :
    seen (exec .refresh heart) (fun t => (t.out, t.cur, t.events)) =
      some (0xA5A528F5, 1, [.clr 0xFFF0, .set 0x28F0]) := by decide

/-- V33, step 1, as a tick; V37: the third row of the blank image wraps the cursor. -/
theorem test_tick_shows_row :
    seen (step (setEnv [.tick] heart)) (fun t => (t.out, t.cur)) = some (0xA5A528F5, 1) ∧
    seen (step (setEnv [.tick] { board with cur := 2 })) (fun t => (t.out, t.cur)) = some (0x9FF0, 0) := by decide

/-- R7, R13, R100, worked by hand at width 10: NOT LED_MASK is 0x200, so the one foreign line stays. -/
theorem test_refresh_at_width_10 :
    seen (exec .refresh (State.resetWith narrow 0x7FF)) (·.out) = some 0x355 ∧
    (State.resetWith narrow 0x7FF).out = 0x3FF := by decide

/-- R72 at width 10: cell (1,1) is bit 0 of row-word 0. -/
theorem test_setPixel_at_width_10 :
    seen (exec (.setPixel 1 1 1) (State.resetWith narrow 0)) (·.rw) = some #v[0x154, 0x000, 0x0AA] := by decide

/-- V3: a reserved opcode is used up and nothing else changes. -/
theorem test_reserved_does_nothing : seen (step (setPortM [0xFFFFFFFF] cross)) id = some cross := by decide

/-- V60: the block comes out of the reset event blank. -/
theorem test_construct :
    seen (step (setEnv [.construct] unreset)) (fun t => (t.px, t.rw, t.cur, t.todo, t.constructed)) =
      some (imageCells 0, #v[0x3FF0, 0x5FF0, 0x9FF0], 0, [], true) := by decide

/-- What has no meaning is refused by name. -/
theorem test_refusals :
    why (exec .refresh unreset) = some .notReset ∧ why (exec .refresh busy) = some .overlappingCommand ∧
    why (step (setEnv [.portTCommand 0x70000000] board)) = some .commandOnPortT ∧
    why (step (setEnv [.construct] board)) = some .secondReset ∧
    why (configure badSentinel 0) = some .illegalConfiguration := by decide

/-! ### Witnesses: the hypotheses of each statement, met together, at the ends of each clause's range -/

theorem witness_DecoderMatchesOpcodeTable :
    (0x1FFFFFFF : Command) &&& 0xF0000000 = 0x10000000 ∧ (0x2F010101 : Command) &&& 0xF0000000 = 0x20000000 ∧
    (0x300101FF : Command) &&& 0xF0000000 = 0x30000000 ∧ (0x400101AA : Command) &&& 0xF0000000 = 0x40000000 ∧
    (0x5E000001 : Command) &&& 0xF0000000 = 0x50000000 ∧ (0x6FFF03F5 : Command) &&& 0xF0000000 = 0x60000000 ∧
    (0x7ABCDEF0 : Command) &&& 0xF0000000 = 0x70000000 ∧ (0x0FFFFFFF : Command).toNat / 2 ^ 28 = 0 ∧
    8 ≤ (0x80000000 : Command).toNat / 2 ^ 28 ∧ 8 ≤ (0xFFFFFFFF : Command).toNat / 2 ^ 28 := by decide

theorem witness_DecodeOfEncodeIsIdentity :
    Instr.clearImage.wf = true ∧ (Instr.setPixel 0 0 0).wf = true ∧ (Instr.setPixel 255 255 255).wf = true ∧
    (Instr.togglePixel 255 255 255).wf = true ∧ (Instr.getPixel 255 255 255).wf = true ∧
    (Instr.setImage 0x1FFFFFF).wf = true ∧ (Instr.setColumn 255 0b11111).wf = true ∧ Instr.refresh.wf = true := by
  decide

theorem witness_EncodeOfDecodeKeepsNamedBits :
    decode 0x2F010101 = .ok (.setPixel 1 1 1) ∧ decode 0x6FFF03F5 = .ok (.setColumn 3 0b10101) := by decide

theorem witness_UnusedBitsTakeNoPart :
    ((0x2F010101 : Command) ^^^ 0x20010101) &&& namedBits 0x2F010101 = 0 ∧
    ((0x6FFF03F5 : Command) ^^^ 0x60000315) &&& namedBits 0x6FFF03F5 = 0 ∧
    ((0xFFFFFFFF : Command) ^^^ 0xF0000000) &&& namedBits 0xFFFFFFFF = 0 := by decide

/-- R79: the operands at 255 and 256; a text with no ';' in it. -/
theorem witness_AssembledWordsDecode : assembleWord (.setPixel 255 255 255) = some 0x20FFFFFF ∧
    assembleText "SETCOLUMN 3, 10101".toList = some 0x60000315 ∧
    assembleText "GETPIXEL 0, 255".toList = some 0x4000FF00 ∧ assembleText "GETPIXEL 0, 256".toList = none ∧
    ';' ∉ "GETPIXEL 0, 255".toList := by decide

/-- R80: the first cell is bit 0, the last is bit 24, and no cell is missing. -/
theorem witness_CellStringsAreReadBitByBit :
    assemble (.setImage "10000/00000/00000/00000/00000".toList) = some (.setImage 0x0000001) ∧
    assemble (.setImage "00000/00000/00000/00000/00001".toList) = some (.setImage 0x1000000) ∧
    assemble (.setImage "00000/00000/00000/00000/0000".toList) = none ∧
    assemble (.setColumn 5 "00001".toList) = some (.setColumn 5 0b10000) := by decide

theorem witness_StepRunsDecodedCommand :
    (setPortM [0x51151151] board).Ready ∧ (setPortM [0x51151151] board).PortMGoes [] ∧
    (setEnv [.main 1, .tick] (setPortM [0x51151151] board)).PortMGoes [.tick] ∧
    decode 0x51151151 = .ok (.setImage 0x1151151) := by decide

theorem witness_PlacedWordRunsNext :
    board.Ready ∧ decodeTableWord 32 0x10000000 = some .clearImage ∧
    decodeTableWord 32 0x7FFFFFFF = some .refresh := by decide

theorem witness_ReservedOpcodesDoNothing :
    opField 0x0FFFFFFF = 0x0 ∧ 0x8 ≤ opField 0x80000000 ∧ 0x8 ≤ opField 0xFFFFFFFF ∧
    (setEnv [.main 2, .tick] (setPortM [0x80000000, 0x70000000] cross)).Ready ∧
    (setEnv [.main 2, .tick] (setPortM [0x80000000, 0x70000000] cross)).PortMGoes [.tick] := by decide

theorem witness_IdleBlockHolds : cross.Ready ∧ cross.PortMGoes [] ∧ cross.portM = [] := by decide

theorem witness_TickIsOneRefreshStep : (setEnv [.tick, .main 0] heart).Ready ∧
    (setEnv [.tick, .main 0] heart).env = .tick :: [.main 0] ∧ busy.todo ≠ [] := by decide

theorem witness_CommandInProgressContinues :
    busy.constructed = true ∧ busy.todo ≠ [] ∧
    (setEnv [.tick, .foreign 5, .ledWrite 0xFFF0, .main 1] busy).Lawful := by decide

theorem witness_ForeignWriteKeepsLedBits :
    (setEnv [.foreign 0xFFFFFFFF] heart).Ready ∧ (setEnv [.foreign 0xFFFFFFFF] heart).env = .foreign 0xFFFFFFFF :: [] := by
  decide

theorem witness_NextRefreshRepairsLedWrite :
    (setEnv [.ledWrite 0xFFFFFFFF, .tick] heart).Ready ∧ (setEnv [.ledWrite 0xFFFFFFFF, .tick] heart).Sized ∧
    (setEnv [.ledWrite 0xFFFFFFFF, .tick] heart).Confined ∧
    (setEnv [.ledWrite 0xFFFFFFFF, .tick] heart).env = .ledWrite 0xFFFFFFFF :: .tick :: [] := by decide

theorem witness_ConstructionResetsAndEmitsNothing :
    (setEnv [.construct, .tick] unreset).constructed = false ∧
    (setEnv [.construct, .tick] unreset).env = .construct :: [.tick] := by decide

theorem witness_UnresetBlockIsRefused :
    unreset.constructed = false ∧ (∀ ts, unreset.env ≠ .construct :: ts) ∧
    (setEnv [.tick] unreset).constructed = false ∧ (∀ ts, (setEnv [.tick] unreset).env ≠ .construct :: ts) :=
  ⟨rfl, fun _ h => (nomatch h), rfl, fun _ h => (nomatch h)⟩

theorem witness_MisuseIsRefused :
    (setEnv [.portTCommand 0] board).constructed = true ∧ (setEnv [.construct] busy).constructed = true ∧
    busy.todo ≠ [] := by decide

theorem witness_IllegalConfigurationsAreRefused :
    ¬ (badSentinel.Sized ∧ badSentinel.K1 ∧ badSentinel.K2 ∧ badSentinel.K3 ∧ badSentinel.K4) ∧
    ¬ badMask.K3 ∧ ¬ badPos.K2 ∧ ¬ badCell.K1 ∧ ¬ badWidth.Sized ∧ Config.refMb1Data.Legal ∧ narrowData.Legal :=
  ⟨fun h => absurd h.2.2.2.2 (by decide), by decide, by decide, by decide, by decide, Config.refMb1Data_legal,
    test_narrow_is_legal⟩

theorem witness_PackXorsEachCellIntoItsBit :
    Config.refMb1.cellAt 0 0 = some 0 ∧ Config.refMb1.cellAt 2 8 = some 13 ∧
    (∀ k : Slot, Config.refMb1.cellAt 1 k ≠ none → Config.refMb1.posAt 1 k ≠ 11) ∧
    (∀ k : Slot, Config.refMb1.cellAt 1 k ≠ none → Config.refMb1.posAt 1 k ≠ 32) := by decide

theorem witness_SinglePixelFlipsOneBit : Config.refMb1.cellAt 0 0 = some 0 ∧ Config.refMb1.cellAt 1 5 = some 23 := by decide

theorem witness_PackIsInjective :
    Config.refMb1.cellAt 2 1 = some 24 ∧ packAll Config.refMb1.toCfgData blank = packAll Config.refMb1.toCfgData blank := ⟨by decide, rfl⟩

theorem witness_SetPixelWritesItsCell :
    board.Ready ∧ board.Uninterrupted 4 ∧ (setEnv (mains 4 ++ [.tick]) cross).Ready ∧
    (setEnv (mains 4 ++ [.tick]) cross).Uninterrupted 4 ∧
    (InRange 1 1 ∧ ValInRange 0) ∧ (InRange 5 5 ∧ ValInRange 1) ∧ ¬ (InRange 0 3 ∧ ValInRange 1) ∧
    ¬ (InRange 6 3 ∧ ValInRange 1) ∧ ¬ (InRange 3 0 ∧ ValInRange 1) ∧ ¬ (InRange 3 6 ∧ ValInRange 1) ∧
    ¬ (InRange 1 1 ∧ ValInRange 2) ∧ ¬ (InRange 1 1 ∧ ValInRange 255) := by decide

theorem witness_TogglePixelComplementsItsCell :
    (setEnv (mains 4) cross).Ready ∧ (setEnv (mains 4) cross).Uninterrupted 4 ∧ InRange 1 1 ∧ InRange 5 5 ∧
    ¬ InRange 0 3 ∧ ¬ InRange 6 3 ∧ ¬ InRange 3 0 ∧ ¬ InRange 3 6 := by decide

theorem witness_GetPixelRespondsCellOrSentinel :
    (setEnv (mains 1 ++ [.tick]) cross).Ready ∧ (setEnv (mains 1 ++ [.tick]) cross).Uninterrupted 1 ∧ InRange 1 5 ∧
    InRange 5 1 ∧ ¬ InRange 0 3 ∧ ¬ InRange 6 3 ∧ ¬ InRange 3 0 ∧ ¬ InRange 3 6 := by decide

theorem witness_SetImageReplacesBuffer : cross.Ready ∧ cross.Uninterrupted 4 := by decide

theorem witness_SetColumnReplacesItsColumn :
    cross.Ready ∧ cross.Uninterrupted 4 ∧ ColInRange 1 ∧ ColInRange 5 ∧ InRange 1 1 ∧ InRange 5 5 ∧
    ¬ ColInRange 0 ∧ ¬ ColInRange 6 ∧ ¬ ColInRange 255 := by decide

theorem witness_ClearImageBlanksAndEmitsThreeRows :
    (setEnv (mains 7 ++ [.tick]) cross).Ready ∧ (setEnv (mains 7 ++ [.tick]) cross).Uninterrupted 7 ∧
    ∃ t, exec .clearImage (setEnv [.main 0, .tick, .foreign 7, .tick] cross) = .next t :=
  ⟨by decide, by decide, exec_lawful _ (by decide) (by decide)⟩

theorem witness_RefreshEmitsRowAtCursor :
    (setEnv (mains 1 ++ [.tick]) heart).Ready ∧ (setEnv (mains 1 ++ [.tick]) heart).Uninterrupted 1 := by decide

theorem witness_SoftFailedCommandsChangeNothing :
    (setEnv [.main 1, .tick, .construct] cross).Ready ∧
    (∀ x ∈ [(0, 3, 1), (6, 3, 1), (3, 0, 1), (3, 6, 1), (1, 1, 2), (255, 255, 255)],
      ¬ ((1 ≤ x.1 ∧ x.1 ≤ 5) ∧ (1 ≤ x.2.1 ∧ x.2.1 ≤ 5) ∧ (x.2.2 = 0 ∨ x.2.2 = 1))) ∧
    (∀ x ∈ [(0, 3), (6, 3), (3, 0), (3, 6)], ¬ ((1 ≤ x.1 ∧ x.1 ≤ 5) ∧ (1 ≤ x.2 ∧ x.2 ≤ 5))) ∧
    (setEnv [.main 1, .tick, .construct] cross).env = .main 1 :: [.tick, .construct] ∧
    ∀ col ∈ [0, 6, 255], ¬ (1 ≤ col ∧ col ≤ 5) := by decide

theorem witness_TogglePixelTwiceRestores :
    cross.Inv ∧ ∃ t u, exec (.togglePixel 1 5 0) cross = .next t ∧ exec (.togglePixel 1 5 7) t = .next u := by
  refine ⟨by decide, ?_⟩
  obtain ⟨t, ht⟩ := exec_lawful (.togglePixel 1 5 0) (s := cross) (by decide) (by decide)
  obtain ⟨u, hu⟩ := answers_of_seen (o := exec (.togglePixel 1 5 7) t) (by cases ht; decide)
  exact ⟨t, u, ht, hu⟩

theorem witness_TogglePixelFlipsOneRowWordBit :
    cross.Inv ∧ InRange 5 5 ∧ (∃ t, exec (.togglePixel 5 5 0) cross = .next t) ∧ ((0 : RowGroup) ≠ 2) :=
  ⟨by decide, by decide, exec_lawful _ (by decide) (by decide), by decide⟩

theorem witness_StoresAreIdempotent :
    cross.Inv ∧ ∃ t u, exec (.setColumn 5 0b10000) cross = .next t ∧ exec (.setColumn 5 0b10000) t = .next u := by
  refine ⟨by decide, ?_⟩
  obtain ⟨t, ht⟩ := exec_lawful (.setColumn 5 0b10000) (s := cross) (by decide) (by decide)
  obtain ⟨u, hu⟩ := answers_of_seen (o := exec (.setColumn 5 0b10000) t) (by cases ht; decide)
  exact ⟨t, u, ht, hu⟩

theorem witness_EveryCommandWordCompletes :
    let s := setPortM [0x10000000, 0xFFFFFFFF] (setEnv [.main 0, .tick, .ledWrite 0] cross)
    s.Ready ∧ s.Lawful ∧ s.PortMGoes [.tick, .ledWrite 0] := by decide

theorem witness_CommandsAreBounded :
    (setEnv [.tick, .main 0, .foreign 1, .tick] cross).Ready ∧ (setEnv [.tick, .main 0, .foreign 1, .tick] cross).Lawful := by
  decide

theorem witness_TicksDoNotDisturbMutators :
    mutates (.setColumn 1 0b11111) = true ∧ ∃ t, exec (.setColumn 1 0b11111) (setEnv [.tick, .main 0, .tick] cross) = .next t :=
  ⟨rfl, exec_lawful _ (by decide) (by decide)⟩

theorem witness_CommandFrameUnderAnySchedule :
    (∃ t, exec .clearImage (setEnv [.tick, .main 0, .tick] cross) = .next t) ∧
    (∃ t, exec (.getPixel 6 6 0) (setEnv [.tick] cross) = .next t) ∧ mutates (.getPixel 6 6 0) = false ∧
    (∃ t, exec (.setPixel 0 0 0) cross = .next t) ∧ mutates (.setPixel 0 0 0) = false :=
  ⟨exec_lawful _ (by decide) (by decide), exec_lawful _ (by decide) (by decide), rfl,
    exec_lawful _ (by decide) (by decide), rfl⟩

theorem witness_StoresLeaveOtherCells :
    (∃ t, exec (.setPixel 1 1 0) cross = .next t) ∧ cellOf 1 1 ≠ some 24 ∧ cellOf 6 6 ≠ some 0 ∧
    (∃ t, exec (.togglePixel 5 5 0) cross = .next t) ∧ (∃ t, exec (.setColumn 5 0) cross = .next t) ∧
    (∀ r, cellOf r 5 ≠ some 0) ∧ (∃ t, exec (.getPixel 1 1 0) cross = .next t) ∧ ∃ t, exec .refresh cross = .next t := by
  refine ⟨exec_lawful _ (by decide) (by decide), by decide, by decide, exec_lawful _ (by decide) (by decide),
    exec_lawful _ (by decide) (by decide), fun r => ?_, exec_lawful _ (by decide) (by decide),
    exec_lawful _ (by decide) (by decide)⟩
  unfold cellOf
  split
  · simp [idx]
  · simp

theorem witness_OnlyRefreshStepsMoveTheCursor :
    ∃ t, exec .clearImage (setEnv [.main 0, .tick] cross) = .next t := exec_lawful _ (by decide) (by decide)

theorem witness_TicksInsideMutatorsSeeOldOrNewWords :
    let s := setEnv [.main 0, .tick, .main 2, .tick] cross
    s.Inv ∧ mutates (.setImage 0) = true ∧ ∃ t, exec (.setImage 0) s = .next t :=
  ⟨by decide, rfl, exec_lawful _ (by decide) (by decide)⟩

theorem witness_RecomputeOrderIsOpen :
    let s := setEnv [.main 0, .tick, .main 2, .tick, .main 0, .tick, .main 1, .tick] board
    s.Ready ∧ (2 : RowGroup) ≠ 0 ∧ s.env = .main 0 :: .tick :: .main 2 :: .tick :: .main 0 :: .tick :: [.main 1, .tick] ∧
    ∀ u ∈ [Turn.main 1, Turn.tick].take 1, u.isMain = true := by decide

theorem witness_ReadAfterWrite :
    let s := setEnv [.main 0, .tick] cross
    s.Lawful ∧ InRange 1 1 ∧ InRange 5 5 ∧ ValInRange 0 ∧ ColInRange 5 ∧ softFails (.setColumn 6 0) = true ∧
    (∃ t, exec (.setPixel 5 5 0) s = .next t) ∧ (∃ t, exec (.togglePixel 1 1 0) s = .next t) ∧
    (∃ t, exec (.setImage 1) s = .next t) ∧ (∃ t, exec (.setColumn 5 0) s = .next t) ∧
    (∃ t, exec .clearImage s = .next t) ∧ ∃ t, exec (.setColumn 6 0) s = .next t :=
  ⟨by decide, by decide, by decide, by decide, by decide, rfl, exec_lawful _ (by decide) (by decide),
    exec_lawful _ (by decide) (by decide), exec_lawful _ (by decide) (by decide), exec_lawful _ (by decide) (by decide),
    exec_lawful _ (by decide) (by decide), exec_lawful _ (by decide) (by decide)⟩

theorem witness_RefreshShowsTheRowWord :
    heart.Sized ∧ heart.Confined ∧ heart.Ready ∧ (Turn.main 2).isMain = true ∧
    ({ heart with todo := [.emit, .emit] }).Sized ∧ ({ heart with todo := [.emit, .emit] }).Confined ∧ ({ heart with todo := [.emit, .emit] }).todo = .emit :: [.emit] := by
  decide

theorem witness_ThreeRefreshStepsShowOneFrame : cross.Ready ∧ cross.Inv := by decide

theorem witness_RotationCountsEmissions :
    cross.constructed = true ∧
    ∃ t, core.run 2 (setPortM [0x10000000] (setEnv [.tick, .main 0, .tick] cross)) = .next t :=
  ⟨rfl, answers_of_seen rfl⟩

theorem witness_ForeignBitsSurviveEveryStep :
    let s := setPortM [0x10000000] (setEnv [.main 0, .tick, .ledWrite 0xFFFFFFFF] heart)
    s.Inv ∧ (∀ u ∈ s.env, u.isForeign = false) ∧ ∃ t, step s = .next t :=
  ⟨by decide, by decide, answers_of_seen rfl⟩

theorem witness_CacheInvariantIsKept :
    busy.Cache ∧ (∃ t, takeTurn (.main 0) busy = .next t) ∧ busy.stale[(2 : RowGroup)] = false ∧ cross.Inv ∧ cross.todo = [] :=
  ⟨by decide, ⟨_, rfl⟩, by decide, by decide, rfl⟩

theorem witness_EveryTurnKeepsTheInvariant :
    busy.Inv ∧ (∃ t, takeTurn (.main 1) busy = .next t) ∧ ∃ t, takeTurn .tick busy = .next t :=
  ⟨by decide, ⟨_, rfl⟩, ⟨_, rfl⟩⟩

theorem witness_EveryStepKeepsTheInvariant :
    busy.Inv ∧ (∃ t, step busy = .next t) ∧ cross.Inv ∧ ∃ t, step (setPortM [0x3F0505FF] cross) = .next t :=
  ⟨by decide, answers_of_seen rfl, by decide, answers_of_seen rfl⟩

theorem witness_CompletedCommandsLeaveNothingStale :
    cross.Inv ∧ ∃ t, exec .clearImage cross = .next t := ⟨by decide, exec_lawful _ (by decide) (by decide)⟩

theorem witness_WidthIsAParameter : (∃ c : Cfg, c.W = 10) ∧ (∃ c : Cfg, c.W = 32) ∧ ¬ 9 ≤ 8 :=
  ⟨⟨narrow, rfl⟩, ⟨Config.refMb1, rfl⟩, by decide⟩

theorem witness_ConfigurationNeverChanges :
    ∃ t, core.run 2 (setPortM [0x70000000, 0x20010101] board) = .next t := answers_of_seen rfl

end Sys2Proof.Tests
end

/-! The scope of the model (00_scope.md R7, R8): which configurations a block can have, and how wide they are. -/

namespace Sys2Proof

/-! ### The widths of legal configurations -/

/-- K1 gives each of the 25 cells a slot, the types a bit below W to that slot, and K2 tells the bits of one row-group
apart: so the cells lie at distinct ones of the 3·W pairs of a row-group and a bit. -/
theorem CfgData.cells_le_three_mul_W {c : CfgData} (hs : c.Sized) (hK1 : c.K1) (hK2 : c.K2) : 25 ≤ 3 * c.W := by
  have hslot : ∀ i : CellIdx, ∃ (g : RowGroup) (k : Slot), c.cellAt g k = some i := fun i =>
    let ⟨g, k, hi, _⟩ := hK1 i
    ⟨g, k, hi⟩
  choose g k hcell using hslot
  have hocc (i : CellIdx) : c.cellAt (g i) (k i) ≠ none := by simp [hcell]
  have hpos (i : CellIdx) : c.posAt (g i) (k i) < c.W := (hs.2.2 (g i)).2 (k i) (hocc i)
  have hinj : Function.Injective fun i : CellIdx => ((g i, ⟨c.posAt (g i) (k i), hpos i⟩) : RowGroup × Fin c.W) := by
    intro i j hij
    obtain ⟨hg, hp⟩ : g i = g j ∧ c.posAt (g i) (k i) = c.posAt (g j) (k j) := by simpa using hij
    have hk : k i = k j := hK2 (g i) (k i) (k j) (hocc i) (hg ▸ hocc j) (hp.trans (by rw [hg]))
    exact Option.some.inj (by rw [← hcell i, ← hcell j, hg, hk])
  simpa using Fintype.card_le_of_injective _ hinj

/-- The table of `Config.someData` at another width: its base masks are 0 and its LEDs the nine lowest lines. -/
def nineLineData (W : Nat) : CfgData := { Config.someData with W := W }

@[simp] theorem nineLineData_W (W : Nat) : (nineLineData W).W = W := rfl

/-- Nine lines are enough: K1, K2 and K4 do not speak of the width, the base masks are 0, and LED_MASK and the positions
lie below bit 9. -/
theorem nineLineData_legal {W : Nat} (hW : 9 ≤ W) : (nineLineData W).Legal := by
  obtain ⟨-, hK1, hK2, hK3, hK4⟩ := Config.someData_legal
  have hmask : 2 ^ 9 ≤ 2 ^ W := Nat.pow_le_pow_right (by decide) hW
  have hbase : ∀ g : RowGroup, (nineLineData W).baseAt g = 0 :=
    (by decide : ∀ g : RowGroup, Config.someData.baseAt g = 0)
  have hpos : ∀ (g : RowGroup) (k : Slot), (nineLineData W).posAt g k < 9 :=
    (by decide : ∀ (g : RowGroup) (k : Slot), Config.someData.posAt g k < 9)
  refine ⟨⟨Nat.lt_of_lt_of_le (by decide) hW, Nat.lt_of_lt_of_le (by decide : 0x1FF < 2 ^ 9) hmask, fun g => ⟨?_, ?_⟩⟩,
    hK1, hK2, fun g => ⟨?_, (hK3 g).2⟩, hK4⟩
  · rw [hbase]; exact Nat.two_pow_pos W
  · exact fun k _ => Nat.lt_of_lt_of_le (hpos g k) hW
  · rw [hbase]; exact Nat.zero_and _

/-- The widths a block can have: 3·8 bits are too few for 25 cells, and nine lines suffice (R8). -/
theorem exists_cfg_W_iff (W : Nat) : (∃ c : Cfg, c.W = W) ↔ 9 ≤ W := by
  constructor
  · rintro ⟨c, rfl⟩
    obtain ⟨hs, hK1, hK2, -, -⟩ := c.legal
    have := CfgData.cells_le_three_mul_W hs hK1 hK2
    omega
  · exact fun hW => ⟨{ toCfgData := nineLineData W, legal := nineLineData_legal hW }, nineLineData_W W⟩

/-- Whatever the open values are, the block at hand has the width of D1. -/
@[simp] theorem Config.cfg_W : Config.cfg.W = Config.width := by
  unfold Config.cfg
  split <;> rfl

namespace Machine

/-! ### Configuring a block -/

@[simp] theorem resetWith_cfg (c : Cfg) (o : Word) : (State.resetWith c o).cfg = c := rfl
@[simp] theorem resetWith_out (c : Cfg) (o : Word) : (State.resetWith c o).out = o % 2 ^ c.W := rfl

theorem configure_of_legal {d : CfgData} (h : d.Legal) (o : Word) :
    configure d o = .next (State.resetWith { toCfgData := d, legal := h } o) := dif_pos h

theorem configure_of_not_legal {d : CfgData} (h : ¬ d.Legal) (o : Word) :
    configure d o = .refused .illegalConfiguration := dif_neg h

/-- Settles O20: `configure` tests exactly `CfgData.Legal`, and a legal table goes into the reset state as it is. -/
theorem illegalConfigurationsAreRefused : Obligations.IllegalConfigurationsAreRefused := by
  intro d o
  constructor
  · exact fun h => configure_of_not_legal h o
  · exact fun h => ⟨_, configure_of_legal h o, congrArg Cfg.toCfgData (resetWith_cfg _ o), resetWith_out _ o⟩

/-- Settles O55: legality is part of the type of a state's configuration, the open configuration is fixed at D1's width,
and the possible widths are those that have room for the nine cells of a row-group. -/
theorem widthIsAParameter : Obligations.WidthIsAParameter := by
  refine ⟨fun s => s.cfg.legal, ?_, exists_cfg_W_iff⟩
  calc State.reset.cfg.W
    _ = Config.cfg.W := by rw [State.reset, resetWith_cfg]
    _ = 32 := Config.cfg_W

end Machine

end Sys2Proof

/-! What a step keeps (10_state.md), said once for every predicate on states: it is enough that the operations of a
micro-step, the writes of the environment, the issue of a command and the reset event keep it. With it the invariant of the
block (R30), the configuration (R29) and the bits outside LED_MASK (R27). -/

namespace Sys2Proof.Machine

/-! ### Packed row-words at reset, and inside LED_MASK -/

theorem slotBits_blank (c : CfgData) (g : RowGroup) (k : Slot) : slotBits c g blank k = 0 := by
  unfold slotBits
  split
  · rfl
  · simp [blank, shlW]

/-- R73 "Blank". -/
@[simp] theorem pack_blank (c : CfgData) (g : RowGroup) : pack c g blank = c.baseAt g := by
  refine Nat.eq_of_testBit_eq fun b => ?_
  rw [pack_testBit]
  exact foldl_bxor_false _ _ _ fun k _ => by simp [slotBits_blank]

/-- The row-words of R31 are those `construct` packs (R131). -/
theorem packAll_blank (c : CfgData) : packAll c blank = c.base := by
  ext1 g hg
  simp [packAll, CfgData.baseAt]

/-- K3 puts every slot inside LED_MASK, so outside it a row-word has the bits of its base mask, which are 0 there. -/
theorem pack_confined (c : Cfg) (g : RowGroup) (px : Pixels) : pack c.toCfgData g px &&& c.notLedMask = 0 := by
  obtain ⟨-, -, -, hK3, -⟩ := c.legal
  obtain ⟨hbase, hpos⟩ := hK3 g
  refine Nat.eq_of_testBit_eq fun b => ?_
  cases hm : c.ledMask.testBit b with
  | true => simp [hm]
  | false =>
    have hno : ∀ k : Slot, c.cellAt g k ≠ none → c.posAt g k ≠ b := by
      rintro k hk rfl
      rw [hpos k hk] at hm
      cases hm
    rw [Nat.testBit_and, pack_testBit_of_no_slot _ _ _ _ hno, ← Nat.testBit_and, hbase]

/-! ### What a turn keeps -/

/-- Each operation that a micro-step of port M is made of keeps `P`. -/
structure MicroKept (P : State → Prop) : Prop where
  todo : ∀ ms s, P s → P (setTodo ms s)
  write : ∀ b s, P s → P (writeBuffer b s)
  recompute : ∀ g s, P s → P (recomputeWord g s)
  emit : ∀ s, P s → P (emitStep s)
  respond : ∀ v s, P s → P (respond v s)

theorem MicroKept.mainTurn {P : State → Prop} (h : MicroKept P) (p : RowGroup) {s : State} (hs : P s) :
    P (mainTurn p s) := by
  cases hm : s.todo with
  | nil => rwa [mainTurn_of_nil hm]
  | cons m ms =>
    rw [mainTurn_of_todo hm]
    refine h.todo _ _ ?_
    cases m with
    | write b => exact h.write b s hs
    | emit => exact h.emit s hs
    | respond cell => exact h.respond _ s hs
    | recompute =>
      rw [runMicro]
      rcases recompute_cases p s with ⟨g, -, hr⟩ | ⟨-, hr⟩ <;> rw [hr]
      · exact h.recompute g s hs
      · exact hs

/-- What the micro-steps keep, a turn keeps when the environment's writes of `out` keep it too. -/
theorem MicroKept.playTurn {P : State → Prop} (h : MicroKept P) (u : Turn)
    (hforeign : u.isForeign = true → ∀ v s, P s → P (foreignWrite v s)) (hled : ∀ v s, P s → P (ledWrite v s))
    {s : State} (hs : P s) : P (playTurn u s) := by
  cases u with
  | main p => exact h.mainTurn p hs
  | tick => exact h.emit s hs
  | foreign v => exact hforeign rfl v s hs
  | ledWrite v => exact hled v s hs
  | portTCommand C => exact hs
  | construct => exact hs

/-- What each turn of a stretch keeps, the stretch keeps. -/
theorem play_keeps {P : State → Prop} {ts : List Turn} (h : ∀ u ∈ ts, ∀ s, P s → P (playTurn u s)) {s : State}
    (hs : P s) : P (play ts s) := by
  induction ts generalizing s with
  | nil => exact hs
  | cons u ts ih =>
    exact ih (fun v hv => h v (List.mem_cons_of_mem _ hv)) (h u List.mem_cons_self s hs)

/-! ### What a step keeps -/

/-- Everything a step can be made of keeps `P`, when the turns it takes are port M's or stand in the schedule `ts`: moving
the inputs on, issuing a command on a quiescent block, the reset event, and the turns. -/
structure StepKept (P : State → Prop) (ts : List Turn) : Prop where
  env : ∀ us s, P s → P (setEnv us s)
  portM : ∀ C Cs s, s.portM = C :: Cs → P s → P (setPortM Cs s)
  issue : ∀ i s, s.Ready → P s → P (setTodo (micros i) s)
  construct : ∀ s, P s → P (construct s)
  turn : ∀ u, u.isMain = true ∨ u ∈ ts → ∀ s, P s → P (playTurn u s)

section
variable {P : State → Prop} {ts : List Turn} (h : StepKept P ts)
include h

/-- The turns of a command's run: `used`, a part of the schedule, and port M's after the schedule's end. -/
theorem StepKept.play {used : List Turn} (hused : ∀ u ∈ used, u ∈ ts) (k : Nat) {s : State} (hs : P s) :
    P (play (used ++ List.replicate k (.main 0)) s) := by
  refine play_keeps (fun u hu => h.turn u ?_) hs
  rcases List.mem_append.mp hu with hu | hu
  · exact .inr (hused u hu)
  · exact .inl (by rw [List.eq_of_mem_replicate hu]; rfl)

theorem StepKept.runTurns {us : List Turn} (hus : ∀ u ∈ us, u ∈ ts) {s t : State} (hs : P s)
    (hrun : runTurns us s = .next t) : P t := by
  obtain ⟨used, k, rfl, -, -, -, ht⟩ := runTurns_next hrun
  rw [ht]
  exact h.env _ _ (h.play (fun u hu => hus u (List.mem_append_left _ hu)) k hs)

theorem StepKept.exec {i : Instr} {s t : State} (henv : ∀ u ∈ s.env, u ∈ ts) (hs : P s) (he : exec i s = .next t) :
    P t := by
  obtain ⟨hr, -, hrun, -⟩ := exec_next he
  exact h.runTurns henv (h.issue i s hr hs) hrun

theorem StepKept.issueNext {s t : State} (henv : ∀ u ∈ s.env, u ∈ ts) (hs : P s) (hi : issueNext s = .next t) : P t := by
  rcases issueNext_cases hi with ⟨-, rfl⟩ | ⟨C, Cs, hC, ⟨i, -, he⟩ | ⟨-, rfl⟩⟩
  · exact hs
  · exact h.exec (s := setPortM Cs s) henv (h.portM C Cs s hC hs) he
  · exact h.portM C Cs s hC hs

end

/-- The schedule after port M's turn is a rest of the schedule. -/
theorem mem_env_of_portMGoes {s : State} {ts : List Turn} (hp : s.PortMGoes ts) {u : Turn} (hu : u ∈ ts) : u ∈ s.env := by
  rcases hp with ⟨-, rfl⟩ | ⟨p, he⟩
  · cases hu
  · exact he ▸ List.mem_cons_of_mem _ hu

theorem StepKept.step {P : State → Prop} {s t : State} (h : StepKept P s.env) (hs : P s) (hstep : step s = .next t) :
    P t := by
  rcases step_cases hstep with ⟨-, us, -, rfl⟩ | ⟨-, -, hrun⟩ | ⟨-, u, us, he, -, hu⟩ | ⟨-, us, hp, hi⟩
  · exact h.construct _ (h.env us s hs)
  · exact h.runTurns (fun _ hu => hu) hs hrun
  · obtain ⟨-, rfl⟩ := takeTurn_next_lawful hu
    exact h.turn u (.inr (he ▸ List.mem_cons_self)) _ (h.env us s hs)
  · exact h.issueNext (fun _ hu => mem_env_of_portMGoes hp hu) (h.env us s hs) hi

/-! ### The invariant, part by part -/

/-- A RECOMPUTE touches no row-word but its own (R90). -/
theorem recomputeWord_of_ne {g g' : RowGroup} (s : State) (hg : g' ≠ g) :
    (recomputeWord g s).rw[g'] = s.rw[g'] ∧ (recomputeWord g s).stale[g'] = s.stale[g'] := by
  have hne : g.val ≠ g'.val := fun e => hg (Fin.ext e.symm)
  simp [hne]

theorem recomputeWord_rw_self (g : RowGroup) (s : State) :
    (recomputeWord g s).rw[g] = pack s.cfg.toCfgData g s.px := by
  simp

/-- Everything is stale after a buffer write, so INV says nothing (R51). -/
theorem writeBuffer_cache (b : BufferWrite) (s : State) : (writeBuffer b s).Cache := by
  intro g hg
  simp [allStale] at hg

theorem recomputeWord_cache (g : RowGroup) {s : State} (h : s.Cache) : (recomputeWord g s).Cache := by
  intro g' hstale
  by_cases hg : g' = g
  · subst hg
    exact recomputeWord_rw_self g' s
  · obtain ⟨hrw, hst⟩ := recomputeWord_of_ne s hg
    rw [hst] at hstale
    rw [hrw, h g' hstale]
    rfl

theorem recomputeWord_confined (g : RowGroup) {s : State} (h : s.Confined) : (recomputeWord g s).Confined := by
  intro g'
  by_cases hg : g' = g
  · subst hg
    rw [recomputeWord_rw_self]
    exact pack_confined s.cfg g' s.px
  · rw [(recomputeWord_of_ne s hg).1]
    exact h g'

/-- The micro-steps keep INV (R30). -/
theorem microKept_cache : MicroKept State.Cache where
  todo _ _ hs := hs
  write b s _ := writeBuffer_cache b s
  recompute g _ hs := recomputeWord_cache g hs
  emit _ hs := hs
  respond _ _ hs := hs

theorem microKept_sized : MicroKept State.Sized where
  todo _ _ hs := hs
  write _ _ hs := hs
  recompute g _ hs := recomputeWord_sized g hs
  emit _ hs := emitStep_sized hs
  respond _ _ hs := hs

theorem microKept_confined : MicroKept State.Confined where
  todo _ _ hs := hs
  write _ _ hs := hs
  recompute g _ hs := recomputeWord_confined g hs
  emit _ hs := hs
  respond _ _ hs := hs

/-- Port M's turn takes the head of `todo` from a state it fits, and leaves a stale set that fits the rest (R51). -/
theorem mainTurn_fits (p : RowGroup) {s : State} (h : s.Fits) : (mainTurn p s).Fits := by
  cases hm : s.todo with
  | nil => rwa [mainTurn_of_nil hm]
  | cons m ms =>
    rw [mainTurn_of_todo hm]
    simp only [State.Fits, hm] at h
    simp only [State.Fits, setTodo_todo, setTodo_stale]
    cases m with
    | write b =>
      obtain ⟨-, h3⟩ := Bool.and_eq_true_iff.mp h
      exact h3
    | recompute =>
      obtain ⟨h0, hrest⟩ := Bool.and_eq_true_iff.mp h
      rcases recompute_cases p s with ⟨g, hg, hr⟩ | ⟨hnone, -⟩
      · simpa only [runMicro, hr, recomputeWord_stale, staleCount_set hg] using hrest
      · simp [staleCount_eq_zero.mpr hnone] at h0
    | emit =>
      obtain ⟨h0, hrest⟩ := Bool.and_eq_true_iff.mp h
      simpa only [runMicro, emitStep_stale, eq_of_beq h0] using hrest
    | respond cell =>
      obtain ⟨h0, hrest⟩ := Bool.and_eq_true_iff.mp h
      simpa only [runMicro, respond_stale, eq_of_beq h0] using hrest

theorem playTurn_fits (u : Turn) {s : State} (h : s.Fits) : (playTurn u s).Fits := by
  cases u with
  | main p => exact mainTurn_fits p h
  | tick => exact h
  | foreign v => exact h
  | ledWrite v => exact h
  | portTCommand C => exact h
  | construct => exact h

theorem playTurn_cache (u : Turn) {s : State} (h : s.Cache) : (playTurn u s).Cache :=
  microKept_cache.playTurn u (fun _ _ _ h => h) (fun _ _ h => h) h

theorem playTurn_inv (u : Turn) {s : State} (h : s.Inv) : (playTurn u s).Inv := by
  obtain ⟨hcache, hsized, hconf, hfits⟩ := h
  exact ⟨playTurn_cache u hcache,
    microKept_sized.playTurn u (fun _ v _ h => foreignWrite_sized v h) (fun v _ h => ledWrite_sized v h) hsized,
    microKept_confined.playTurn u (fun _ _ _ h => h) (fun _ _ h => h) hconf, playTurn_fits u hfits⟩

/-! ### Where the invariant starts: the reset event and the issue of a command -/

theorem construct_confined (s : State) : (construct s).Confined := by
  intro g
  simpa [construct, packAll] using pack_confined s.cfg g blank

/-- The reset event establishes the invariant, whatever the row-words and the stale set were. -/
theorem construct_inv {s : State} (hout : s.out < 2 ^ s.cfg.W) : (construct s).Inv := by
  refine ⟨fun g _ => ?_, ⟨hout, fun g => ?_⟩, construct_confined s, rfl⟩
  · simp [construct, packAll]
  · simpa [construct, packAll] using pack_lt s.cfg.toCfgData g blank s.cfg.legal.1

/-- With no micro-step left nothing is stale (R26). -/
theorem not_stale_of_fits {s : State} (h : s.Fits) (htodo : s.todo = []) (g : RowGroup) : s.stale[g] = false := by
  simp only [State.Fits, htodo] at h
  exact staleCount_eq_zero.mp (eq_of_beq h) g

theorem todoFits_emits (n : Nat) : todoFits 0 (List.replicate n .emit) = true := by
  induction n with
  | zero => rfl
  | succ n ih => simpa [List.replicate_succ, todoFits] using ih

/-- What a command issues fits a block on which nothing is stale (R51). -/
theorem todoFits_micros (i : Instr) : todoFits 0 (micros i) = true := by
  rcases micros_cases i with ⟨-, b, h, -⟩ | ⟨-, -, h, -⟩ | ⟨row, col, val, -, h⟩ | ⟨-, h⟩ <;> rw [h]
  · exact todoFits_emits (ownEmits i)
  · rfl
  · rfl
  · rfl

theorem issue_inv (i : Instr) {s : State} (hr : s.Ready) (h : s.Inv) : (setTodo (micros i) s).Inv := by
  obtain ⟨hcache, hsized, hconf, hfits⟩ := h
  refine ⟨hcache, hsized, hconf, ?_⟩
  have h0 : staleCount s.stale = 0 := staleCount_eq_zero.mpr (not_stale_of_fits hfits hr.2)
  simpa only [State.Fits, setTodo_stale, setTodo_todo, h0] using todoFits_micros i

theorem stepKept_inv (ts : List Turn) : StepKept State.Inv ts where
  env _ _ hs := hs
  portM _ _ _ _ hs := hs
  issue i _ hr hs := issue_inv i hr hs
  construct _ hs := by
    obtain ⟨-, ⟨hout, -⟩, -⟩ := hs
    exact construct_inv hout
  turn u _ _ hs := playTurn_inv u hs

/-- The block after reset is the one the reset event leaves (R131). -/
theorem construct_resetWith (c : Cfg) (o : Word) : construct (State.resetWith c o) = State.resetWith c o := by
  have hrw : packAll c.toCfgData blank = c.base := packAll_blank c.toCfgData
  simp only [construct, State.resetWith, hrw]
  rfl

theorem resetWith_inv (c : Cfg) (o : Word) : (State.resetWith c o).Inv := by
  rw [← construct_resetWith]
  exact construct_inv (Nat.mod_lt o (Nat.two_pow_pos c.W))

/-! ### Settled: the invariant -/

/-- Settles O52: every part a step is made of keeps the invariant, and issuing a command meets it because a quiescent
block has nothing stale. -/
theorem everyStepKeepsTheInvariant : Obligations.EveryStepKeepsTheInvariant :=
  fun s _ hs hstep => (stepKept_inv s.env).step hs hstep

/-- Settles O51: the four parts of the invariant are kept each by itself. -/
theorem everyTurnKeepsTheInvariant : Obligations.EveryTurnKeepsTheInvariant := by
  intro s t u hs hu
  obtain ⟨-, rfl⟩ := takeTurn_next_lawful hu
  exact playTurn_inv u hs

/-- Settles O17: the reset block is what the reset event leaves. -/
theorem resetMeetsInvariant : Obligations.ResetMeetsInvariant := ⟨resetWith_inv _ _, rfl, rfl⟩

/-- Settles O50: a turn keeps INV in every state; that nothing is stale on a quiescent block is the stale set's agreement
with the command in progress. -/
theorem cacheInvariantIsKept : Obligations.CacheInvariantIsKept := by
  obtain ⟨⟨hreset, -⟩, -⟩ := resetMeetsInvariant
  refine ⟨hreset, fun s t u hs hu => ?_, fun s hs htodo g => ?_⟩
  · obtain ⟨-, rfl⟩ := takeTurn_next_lawful hu
    exact playTurn_cache u hs
  · obtain ⟨hcache, -, -, hfits⟩ := hs
    have hg := not_stale_of_fits hfits htodo g
    exact ⟨hg, hcache g hg⟩

/-- Settles O15: the row-words are the base masks by definition, and the blank buffer packs to them. -/
theorem resetGivesResetValues : Obligations.ResetGivesResetValues := by
  refine ⟨fun i => ?_, fun g => ⟨rfl, ?_⟩, rfl, fun g => ?_⟩
  · simp [State.reset, State.resetWith]
  · exact (pack_blank _ g).symm
  · simp [State.reset, State.resetWith]

/-! ### Settled: the configuration and port M's words -/

/-- The configuration is that of `s` and port M has yet to issue a rest of what it has in `s` (R29, R49). -/
def State.Continues (s t : State) : Prop := t.cfg = s.cfg ∧ t.portM <:+ s.portM

theorem stepKept_continues (s : State) (ts : List Turn) : StepKept s.Continues ts where
  env _ _ ht := ht
  portM C Cs t hC ht := by
    obtain ⟨hcfg, hsuffix⟩ := ht
    rw [hC] at hsuffix
    exact ⟨hcfg, (List.suffix_cons C Cs).trans hsuffix⟩
  issue _ _ _ ht := ht
  construct _ ht := ht
  turn u _ t ht := by simpa [State.Continues] using ht

theorem step_continues {s t : State} (h : step s = .next t) : s.Continues t :=
  (stepKept_continues s s.env).step ⟨rfl, List.suffix_rfl⟩ h

/-- Settles O54: each step of the run keeps what is said of the first state. -/
theorem configurationNeverChanges : Obligations.ConfigurationNeverChanges := by
  intro n s t hrun
  have hstep : ∀ u v : State, s.Continues u → step u = .next v → s.Continues v :=
    fun u _ hu h => (stepKept_continues s u.env).step hu h
  obtain ⟨hcfg, Cs, hCs⟩ := run_induct hstep n s t ⟨rfl, List.suffix_rfl⟩ hrun
  exact ⟨hcfg, Cs, hCs.symm⟩

/-! ### Settled: the bits outside LED_MASK -/

/-- The bits of `out` outside LED_MASK are `v`, and no row-word can change them (K3). -/
def State.ShowsOutside (v : Word) (s : State) : Prop := s.Confined ∧ s.out &&& s.cfg.notLedMask = v

/-- An EMITSTEP clears inside LED_MASK and sets a word that lies inside it. -/
theorem emitStep_showsOutside {v : Word} {s : State} (h : s.ShowsOutside v) : (emitStep s).ShowsOutside v := by
  obtain ⟨hconf, hout⟩ := h
  refine ⟨hconf, ?_⟩
  rw [emitStep_out, emitStep_cfg, setInside_and_notW (hconf s.cur), hout]

theorem ledWrite_showsOutside {v : Word} (w : Word) {s : State} (h : s.ShowsOutside v) : (ledWrite w s).ShowsOutside v := by
  obtain ⟨hconf, hout⟩ := h
  refine ⟨hconf, ?_⟩
  rw [ledWrite_out, ledWrite_cfg, (merge_and_notW _ _ _ _).1, hout]

theorem microKept_showsOutside (v : Word) : MicroKept (State.ShowsOutside v) where
  todo _ _ hs := hs
  write _ _ hs := hs
  recompute g _ hs := ⟨recomputeWord_confined g hs.1, hs.2⟩
  emit _ hs := emitStep_showsOutside hs
  respond _ _ hs := hs

/-- In a schedule without a foreign write no turn reaches outside LED_MASK. -/
theorem stepKept_showsOutside (v : Word) {ts : List Turn} (h : ∀ u ∈ ts, u.isForeign = false) :
    StepKept (State.ShowsOutside v) ts where
  env _ _ hs := hs
  portM _ _ _ _ hs := hs
  issue _ _ _ hs := hs
  construct s hs := ⟨construct_confined s, hs.2⟩
  turn u hu s hs := by
    have hnot : u.isForeign = false := by
      rcases hu with hmain | hmem
      · cases u with
        | main p => rfl
        | _ => cases hmain
      · exact h u hmem
    exact (microKept_showsOutside v).playTurn u (fun hf => by rw [hnot] at hf; cases hf)
      (fun w _ h => ledWrite_showsOutside w h) hs

/-- Settles O49: every refresh word lies inside LED_MASK, since the invariant confines the row-words. -/
theorem foreignBitsSurviveEveryStep : Obligations.ForeignBitsSurviveEveryStep := by
  intro s t hinv hforeign hstep
  obtain ⟨-, -, hconf, -⟩ := hinv
  obtain ⟨-, hout⟩ := (stepKept_showsOutside _ hforeign).step ⟨hconf, rfl⟩ hstep
  obtain ⟨hcfg, -⟩ := step_continues hstep
  rwa [hcfg] at hout

/-- Settles O13: the step is the write itself, and a masked write reads back (R27). -/
theorem foreignWriteKeepsLedBits : Obligations.ForeignWriteKeepsLedBits := by
  intro s v ts hr he
  exact ⟨(s.out &&& s.cfg.ledMask) ||| (v &&& s.cfg.notLedMask), step_of_otherTurn hr he rfl,
    (merge_and_mask _ _ _ _).2, (merge_and_notW _ _ _ _).2⟩

/-! ### Settled: before reset -/

theorem exec_unreset (i : Instr) {s : State} (h : s.constructed = false) : exec i s = .refused .notReset := by
  simp [exec_eq_issue, issue, h]

theorem unresetStep_refuses {s : State} (h : ∀ ts, s.env ≠ .construct :: ts) : unresetStep s = .refused .notReset := by
  unfold unresetStep
  split
  · exact absurd ‹_› (h _)
  · rfl

/-- Settles O18: both `exec` and `step` look at the reset mark first. -/
theorem unresetBlockIsRefused : Obligations.UnresetBlockIsRefused :=
  fun s hs => ⟨fun i => exec_unreset i hs, fun h => by simpa [step, hs] using unresetStep_refuses h⟩

end Sys2Proof.Machine

/-! What a command does to buffer, responses, cursor and output history under any schedule (R25, R54, R68). -/

namespace Sys2Proof.Machine

/-! ### The effect and the frame of a command -/

theorem micros_quiet {i : Instr} (h : mutates i = false) : ∀ m ∈ micros i, m.quiet = true := by
  rcases micros_cases i with ⟨hm, -⟩ | ⟨-, -, hi, -⟩ | ⟨row, col, val, -, hi⟩ | ⟨-, hi⟩
  · rw [h] at hm; cases hm
  · simp [hi]
  · simp [hi, Micro.quiet]
  · simp [hi, Micro.quiet]

/-- A command that is no mutator, or soft-fails, leaves the buffer and its cache (R68, R91). -/
theorem exec_of_not_mutates {i : Instr} {s t : State} (hm : mutates i = false) (h : exec i s = .next t) :
    t.px = s.px ∧ t.rw = s.rw ∧ t.stale = s.stale := by
  obtain ⟨-, -, -, used, k, -, -, -, ht⟩ := exec_next h
  rw [ht]
  exact play_quiet _ (setTodo (micros i) s) (micros_quiet hm)

theorem bufferAfter_of_not_mutates {i : Instr} (h : mutates i = false) (px : Pixels) : bufferAfter i px = px := by
  rcases micros_cases i with ⟨hm, -⟩ | ⟨-, -, -, -, hpx, -⟩ | ⟨row, col, val, rfl, -⟩ | ⟨rfl, -⟩
  · rw [h] at hm; cases hm
  · exact hpx px
  · rfl
  · rfl

/-- The buffer a command leaves, whatever the schedule (R54). -/
theorem exec_px {i : Instr} {s t : State} (h : exec i s = .next t) : t.px = bufferAfter i s.px := by
  cases hm : mutates i with
  | false => rw [(exec_of_not_mutates hm h).1, bufferAfter_of_not_mutates hm]
  | true =>
    obtain ⟨-, -, hrun, -⟩ := exec_next h
    obtain ⟨-, b, hi, hb⟩ | ⟨hf, -⟩ | ⟨row, col, val, rfl, -⟩ | ⟨rfl, -⟩ := micros_cases i
    · rw [hi] at hrun
      rw [(runTurns_mutator hrun).1, hb]
    · rw [hm] at hf; cases hf
    · cases hm
    · cases hm

/-- A command with no responding micro-step adds none. -/
theorem exec_responses_of_silent {i : Instr} {s t : State} (hi : ∀ m ∈ micros i, m.responds = false)
    (h : exec i s = .next t) : t.responses = s.responses := by
  obtain ⟨-, -, -, used, k, -, -, -, ht⟩ := exec_next h
  rw [ht]
  exact play_responses _ (setTodo (micros i) s) hi

theorem responseOf_cellOf (s : State) (row col : Nat) : responseOf s (cellOf row col) = pixelResponse s row col := by
  by_cases h : InRange row col
  · rw [cellOf_inRange h, pixelResponse, dif_pos h]
    simp only [responseOf, Fin.getElem_fin]
    cases s.px[idx row col]'(idx_lt h) <;> rfl
  · rw [cellOf_outOfRange h, pixelResponse, dif_neg h]
    rfl

/-- GETPIXEL's one micro-step responds from the buffer as it was when issued (R95). -/
theorem exec_getPixel_responses {row col val : Nat} {s t : State} (h : exec (.getPixel row col val) s = .next t) :
    t.responses = s.responses ++ [pixelResponse s row col] := by
  obtain ⟨-, -, -, used, k, -, -, hcount, ht⟩ := exec_next h
  have hone : mainCount (used ++ List.replicate k (.main 0)) = 1 := by simpa [micros, getPixelMicros] using hcount
  rw [ht, setEnv_responses, play_respond (cellOf row col) _ _ rfl, hone, ← responseOf_cellOf]
  rfl

theorem commandResponses_of_mutates {i : Instr} (h : mutates i = true) (s : State) : commandResponses i s = [] := by
  cases i with
  | getPixel row col val => cases h
  | _ => rfl

theorem exec_responses {i : Instr} {s t : State} (h : exec i s = .next t) :
    t.responses = s.responses ++ commandResponses i s := by
  have silent (hi : ∀ m ∈ micros i, m.responds = false) (hc : commandResponses i s = []) :
      t.responses = s.responses ++ commandResponses i s := by
    rw [hc, List.append_nil]; exact exec_responses_of_silent hi h
  rcases micros_cases i with ⟨hm, b, hi, -⟩ | ⟨-, -, hi, -, -, hc⟩ | ⟨row, col, val, rfl, -⟩ | ⟨rfl, -⟩
  · refine silent (fun m hmem => ?_) (commandResponses_of_mutates hm s)
    simp only [hi, mutatorMicros, List.cons_append, List.nil_append, List.mem_cons, List.mem_replicate] at hmem
    obtain rfl | rfl | rfl | rfl | ⟨-, rfl⟩ := hmem <;> rfl
  · exact silent (by simp [hi]) (hc s)
  · exact exec_getPixel_responses h
  · exact silent (by simp [micros, refreshMicros, Micro.responds]) rfl

/-- Settles O40: what no turn touches, the run of a command leaves; the rest is `exec_of_not_mutates` and `exec_responses`. -/
theorem commandFrameUnderAnySchedule : Obligations.CommandFrameUnderAnySchedule := by
  intro s t i h
  obtain ⟨hr, htodo, -, used, k, henv, -, -, ht⟩ := exec_next h
  refine ⟨?_, ?_, ?_, htodo.trans hr.2.symm, ⟨used, henv⟩, fun hm => exec_of_not_mutates hm h, exec_responses h⟩ <;>
    rw [ht] <;> simp

/-! ### The cells a store does not address -/

/-- The cell of a 1-based row and column is the one its index names (R21, R41). -/
theorem cellOf_row_column (j : CellIdx) : cellOf (j.val / 5 + 1) (j.val % 5 + 1) = some j := by
  have hj := j.isLt
  have h : InRange (j.val / 5 + 1) (j.val % 5 + 1) := by omega
  rw [cellOf_inRange h]
  congr 1
  ext
  simp only [idx]
  omega

theorem getElem_set_of_cellOf_ne {row col : Nat} (h : InRange row col) (px : Pixels) (v : Bool) {j : CellIdx}
    (hj : cellOf row col ≠ some j) : (px.set (idx row col) v (idx_lt h))[j] = px[j] := by
  rw [cellOf_inRange h] at hj
  have hne : idx row col ≠ j.val := fun e => hj (congrArg some (Fin.ext e))
  simp [hne]

theorem getElem_bufferAfter_setPixel {row col : Nat} (val : Nat) (px : Pixels) {j : CellIdx}
    (hj : cellOf row col ≠ some j) : (bufferAfter (.setPixel row col val) px)[j] = px[j] := by
  rw [bufferAfter_setPixel]
  split
  · rename_i h
    exact getElem_set_of_cellOf_ne h.1 px _ hj
  · rfl

theorem getElem_bufferAfter_togglePixel {row col : Nat} (val : Nat) (px : Pixels) {j : CellIdx}
    (hj : cellOf row col ≠ some j) : (bufferAfter (.togglePixel row col val) px)[j] = px[j] := by
  rw [bufferAfter_togglePixel]
  split
  · rename_i h
    exact getElem_set_of_cellOf_ne h px _ hj
  · rfl

theorem getElem_bufferAfter_setColumn {col : Nat} (cells : BitVec 5) (px : Pixels) {j : CellIdx}
    (hj : ∀ r, cellOf r col ≠ some j) : (bufferAfter (.setColumn col cells) px)[j] = px[j] := by
  have hne : j.val % 5 + 1 ≠ col := by
    rintro rfl
    exact hj _ (cellOf_row_column j)
  rw [bufferAfter_setColumn]
  split
  · simp [hne]
  · rfl

/-- Settles O41: the buffer a command leaves is `bufferAfter`, which writes the addressed cells only. -/
theorem storesLeaveOtherCells : Obligations.StoresLeaveOtherCells := by
  refine ⟨fun s t row col val h j hj => ?_, fun s t row col val h j hj => ?_, fun s t col cells h j hj => ?_,
    fun s t row col val h => exec_px h, fun s t h => exec_px h⟩ <;> rw [exec_px h]
  · exact getElem_bufferAfter_setPixel val s.px hj
  · exact getElem_bufferAfter_togglePixel val s.px hj
  · exact getElem_bufferAfter_setColumn cells s.px hj

/-! ### Emissions -/

theorem emitCount_micros (i : Instr) : emitCount (micros i) = ownEmits i := by
  rcases micros_cases i with ⟨-, b, h, -⟩ | ⟨-, -, h, h0, -⟩ | ⟨row, col, val, rfl, h⟩ | ⟨rfl, h⟩ <;> rw [h]
  · simp [emitCount, mutatorMicros, List.countP_replicate]
  · exact h0.symm
  · rfl
  · rfl

/-- Settles O42: a command has completed when no EMITSTEP of its own is left, so the refresh steps of its run are its own
and the ticks. -/
theorem onlyRefreshStepsMoveTheCursor : Obligations.OnlyRefreshStepsMoveTheCursor := by
  intro s t i h
  obtain ⟨-, htodo, -, used, k, henv, -, -, ht⟩ := exec_next h
  obtain ⟨ws, hevents, hcur, hcount, -⟩ := play_emits_within (A := fun _ _ => True) (P := fun _ => True)
    (fun _ _ _ => trivial) (fun _ _ _ => trivial) (used ++ List.replicate k (.main 0)) (setTodo (micros i) s) trivial
  have hdone : (play (used ++ List.replicate k (.main 0)) (setTodo (micros i) s)).todo = [] := by rwa [ht] at htodo
  have hlen : ws.length = ownEmits i + tickCount used := by
    simpa [hdone, emitCount_micros] using hcount
  refine ⟨used, ws, henv, hlen, ?_, ?_⟩ <;> rw [ht]
  · exact hcur
  · exact hevents

end Sys2Proof.Machine

/-! The two ports and the order of what happens on them (20_memory.md): which command a step issues (R49), the acts that are
refused (R55), and what a command leaves and emits whatever falls inside it (R51 to R54). -/

namespace Sys2Proof.Machine

/-! ### Issuing a word -/

theorem issueNext_of_decode {s : State} {C : Command} {Cs : List Command} {i : Instr} (hC : s.portM = C :: Cs)
    (hi : decode C = .ok i) : issueNext s = exec i (setPortM Cs s) := by
  simp [issueNext, fetch, hC, hi]

/-- Settles O7: port M's turn takes the head of its words, and `issueNext` runs what it decodes to. -/
theorem stepRunsDecodedCommand : Obligations.StepRunsDecodedCommand := by
  intro s C Cs ts i hr hp hC hi
  rw [step_of_portMGoes hr hp, issueNext_of_decode (s := setEnv ts s) hC hi]
  rfl

/-- A table word of the full width is the command word itself (R60). -/
theorem decode_of_decodeTableWord {w : Nat} {i : Instr} (h : decodeTableWord 32 w = some i) :
    decode (BitVec.ofNat 32 (w % 2 ^ 32)) = .ok i := by
  unfold decodeTableWord at h
  rw [if_pos (Nat.le_refl 32)] at h
  split at h
  · cases h; assumption
  · cases h

/-- On a reset, quiescent block, placing a command changes the inputs only. -/
theorem placeCommand_consumed (C : Command) {s : State} (hr : s.Ready) :
    { placeCommand C s with portM := s.portM, env := s.env } = s := by
  obtain ⟨hconstructed, htodo⟩ := hr
  simp only [placeCommand, ← hconstructed, ← htodo]

/-- Settles O8: the placed word is the one the step decodes, and using it up gives the state back. -/
theorem placedWordRunsNext : Obligations.PlacedWordRunsNext := by
  intro s w i hr hi
  have hstep := stepRunsDecodedCommand (s.withFetchWord 32 w) _ s.portM s.env i ⟨rfl, rfl⟩ (.inr ⟨0, rfl⟩) rfl
    (decode_of_decodeTableWord hi)
  rwa [State.withFetchWord, placeCommand_consumed _ hr] at hstep

/-! ### Acts that are refused -/

/-- A turn of another agent that has no meaning is refused by a step, on a quiescent block and inside a command. -/
theorem step_refuses {u : Turn} {r : Refusal} (hu : u.isMain = false) (hrefused : ∀ s, takeTurn u s = .refused r)
    {s : State} {ts : List Turn} (hc : s.constructed = true) (he : s.env = u :: ts) : step s = .refused r := by
  cases htodo : s.todo with
  | nil => rw [step_of_otherTurn ⟨hc, htodo⟩ he hu, hrefused]
  | cons m ms => simp [step, hc, htodo, he, runTurns, hrefused]

theorem exec_overlapping (i : Instr) {s : State} (hc : s.constructed = true) (htodo : s.todo ≠ []) :
    exec i s = .refused .overlappingCommand := by
  rw [exec_eq_issue, issue, if_pos hc]
  split
  · contradiction
  · rfl

/-- Settles O19: `takeTurn` refuses the first two acts in every state, and `issue` the third. -/
theorem misuseIsRefused : Obligations.MisuseIsRefused :=
  ⟨fun _ _ _ hc he => step_refuses rfl (fun _ => rfl) hc he, fun _ _ hc he => step_refuses rfl (fun _ => rfl) hc he,
    fun _ i hc htodo => exec_overlapping i hc htodo⟩

/-! ### What a completed command leaves -/

theorem micros_of_mutates {i : Instr} (h : mutates i = true) :
    ∃ b, micros i = mutatorMicros b ++ List.replicate (ownEmits i) .emit ∧ ∀ px, applyWrite b px = bufferAfter i px := by
  rcases micros_cases i with ⟨-, hb⟩ | ⟨hm, -⟩ | ⟨row, col, val, rfl, -⟩ | ⟨rfl, -⟩
  · exact hb
  · rw [h] at hm; cases hm
  · cases h
  · cases h

/-- Buffer, row-words and stale set after a mutator, whatever the schedule (R54). -/
theorem exec_of_mutates {i : Instr} {s t : State} (hm : mutates i = true) (h : exec i s = .next t) :
    t.px = bufferAfter i s.px ∧ t.rw = packAll s.cfg.toCfgData (bufferAfter i s.px) ∧ t.stale = noneStale := by
  obtain ⟨-, -, hrun, -⟩ := exec_next h
  obtain ⟨b, hi, hb⟩ := micros_of_mutates hm
  rw [hi] at hrun
  simpa only [hb] using runTurns_mutator hrun

/-- Settles O39: `noneStale` is the stale set with no element. -/
theorem ticksDoNotDisturbMutators : Obligations.TicksDoNotDisturbMutators := fun _ _ _ hm h => exec_of_mutates hm h

/-- The invariant of a quiescent block: nothing stale, and the row-words are the packings of the buffer (R30). -/
theorem State.Inv.quiescent {s : State} (h : s.Inv) (htodo : s.todo = []) :
    s.stale = noneStale ∧ ∀ g : RowGroup, s.rw[g] = pack s.cfg.toCfgData g s.px := by
  obtain ⟨hcache, -, -, hfits⟩ := h
  have hstale := not_stale_of_fits hfits htodo
  exact ⟨stale_eq_noneStale hstale, fun g => hcache g (hstale g)⟩

theorem exec_inv {i : Instr} {s t : State} (hs : s.Inv) (h : exec i s = .next t) : t.Inv :=
  (stepKept_inv s.env).exec (fun _ hu => hu) hs h

theorem exec_cfg {i : Instr} {s t : State} (h : exec i s = .next t) : t.cfg = s.cfg := by
  obtain ⟨-, -, -, used, k, -, -, -, ht⟩ := exec_next h
  rw [ht]
  simp

/-- Settles O53: a command keeps the invariant and ends on a quiescent block. -/
theorem completedCommandsLeaveNothingStale : Obligations.CompletedCommandsLeaveNothingStale := by
  intro s t i hs h
  obtain ⟨-, htodo, -⟩ := exec_next h
  obtain ⟨hstale, hrw⟩ := (exec_inv hs h).quiescent htodo
  exact ⟨fun g => by simp [hstale, noneStale], hrw⟩

/-! ### Stores are idempotent -/

theorem bufferAfter_setPixel_idem (row col val : Nat) (px : Pixels) :
    bufferAfter (.setPixel row col val) (bufferAfter (.setPixel row col val) px) =
      bufferAfter (.setPixel row col val) px := by
  simp only [bufferAfter_setPixel]
  split
  · simp
  · rfl

theorem bufferAfter_setColumn_idem (col : Nat) (cells : BitVec 5) (px : Pixels) :
    bufferAfter (.setColumn col cells) (bufferAfter (.setColumn col cells) px) =
      bufferAfter (.setColumn col cells) px := by
  simp only [bufferAfter_setColumn]
  split
  · ext1 j hj
    simp only [Vector.getElem_ofFn, Fin.getElem_fin]
    split <;> rfl
  · rfl

/-- Buffers that agree pack to the same row-words, so on quiescent blocks the whole cache agrees. -/
theorem quiescent_cache_eq {t u : State} (ht : t.Inv) (hu : u.Inv) (httodo : t.todo = []) (hutodo : u.todo = [])
    (hcfg : u.cfg = t.cfg) (hpx : u.px = t.px) : u.rw = t.rw ∧ u.stale = t.stale := by
  obtain ⟨htstale, htrw⟩ := ht.quiescent httodo
  obtain ⟨hustale, hurw⟩ := hu.quiescent hutodo
  refine ⟨?_, hustale.trans htstale.symm⟩
  ext1 g hg
  have hword : u.rw[(⟨g, hg⟩ : RowGroup)] = t.rw[(⟨g, hg⟩ : RowGroup)] := by rw [hurw, htrw, hcfg, hpx]
  exact hword

/-- Settles O36: the buffer of a second equal store is that of the first, and the cache follows the buffer. -/
theorem storesAreIdempotent : Obligations.StoresAreIdempotent := by
  intro s t u i hs hi ht hu
  have hidem : bufferAfter i (bufferAfter i s.px) = bufferAfter i s.px := by
    rcases hi with ⟨row, col, val, rfl⟩ | ⟨img, rfl⟩ | ⟨col, cells, rfl⟩
    · exact bufferAfter_setPixel_idem row col val s.px
    · simp only [bufferAfter_setImage]
    · exact bufferAfter_setColumn_idem col cells s.px
  have hpx : u.px = t.px := by rw [exec_px hu, exec_px ht, hidem]
  obtain ⟨-, httodo, -⟩ := exec_next ht
  obtain ⟨-, hutodo, -⟩ := exec_next hu
  have htinv := exec_inv hs ht
  exact ⟨hpx, quiescent_cache_eq htinv (exec_inv htinv hu) httodo hutodo (exec_cfg hu) hpx⟩

/-! ### What is emitted inside a mutator -/

/-- At every point of a mutator each row-word is the one it started with or the packing of the new buffer (R53). -/
theorem MutatorPhase.rw_old_or_new {b : BufferWrite} {s t : State} (h : MutatorPhase b s t) (g : RowGroup) :
    t.rw[g] = s.rw[g] ∨ t.rw[g] = pack s.cfg.toCfgData g (applyWrite b s.px) := by
  obtain ⟨-, ⟨-, -, -, hrw⟩ | ⟨-, hrw, -⟩⟩ := h
  · exact .inl (by rw [hrw])
  · rw [hrw g]
    split
    · exact .inl rfl
    · exact .inr rfl

/-- Settles O43: an emitted word is a row-word of some point of the mutator, and the old row-words are packings by the
invariant. -/
theorem ticksInsideMutatorsSeeOldOrNewWords : Obligations.TicksInsideMutatorsSeeOldOrNewWords := by
  intro s t i hs hm h
  obtain ⟨hr, -, -, used, k, -, -, -, ht⟩ := exec_next h
  obtain ⟨b, hi, hb⟩ := micros_of_mutates hm
  obtain ⟨-, hold⟩ := hs.quiescent hr.2
  obtain ⟨ws, hevents, -, -, hws⟩ := play_emits_within
    (A := fun g w => w = s.rw[g] ∨ w = pack s.cfg.toCfgData g (applyWrite b s.px))
    (fun u t h => MutatorPhase.playTurn u t h) (fun _ h g => h.rw_old_or_new g) (used ++ List.replicate k (.main 0))
    (setTodo (micros i) s) ⟨rfl, .inl ⟨ownEmits i, hi, rfl, rfl⟩⟩
  refine ⟨ws, by rw [ht]; exact hevents, fun j hj => ?_⟩
  simpa only [exec_px h, ← hb, ← hold, setTodo_cur] using hws j hj

/-! ### The order of the RECOMPUTEs -/

/-- While the command has a micro-step left after them, the lawful turns at the head of a schedule are played. -/
theorem runTurns_append {used : List Turn} (ts : List Turn) {s : State} (hlawful : ∀ u ∈ used, u.lawful = true)
    (hlen : mainCount used < s.todo.length) : runTurns (used ++ ts) s = runTurns ts (play used s) := by
  induction used generalizing s with
  | nil => rfl
  | cons u used ih =>
    rw [mainCount_cons] at hlen
    have htodo : s.todo ≠ [] := by rintro h; simp [h] at hlen
    rw [List.cons_append, runTurns_cons _ htodo (hlawful u List.mem_cons_self), play_cons]
    refine ih (fun v hv => hlawful v (List.mem_cons_of_mem _ hv)) ?_
    rw [playTurn_todo, List.length_drop]
    omega

theorem recomputeWord_rw_getElem (g g' : RowGroup) (s : State) :
    (recomputeWord g s).rw[g'] = if g' = g then pack s.cfg.toCfgData g' s.px else s.rw[g'] := by
  split
  · subst g'; exact recomputeWord_rw_self g s
  · exact (recomputeWord_of_ne s ‹_›).1

/-- With one micro-step left and port M going, that micro-step ends the command. -/
theorem runTurns_last {m : Micro} {ts : List Turn} {s : State} (htodo : s.todo = [m])
    (hmain : ∀ u ∈ ts.take 1, u.isMain = true) :
    ∃ p, runTurns ts s = .next (setEnv (ts.drop 1) (setTodo [] (runMicro m p s))) := by
  have hone : s.todo.length = 1 := by rw [htodo]; rfl
  obtain ⟨ps, hps, hrun⟩ := runTurns_uninterrupted (s := s) (by rwa [hone])
  obtain ⟨p, rfl⟩ := List.length_eq_one_iff.mp (hps.trans hone)
  exact ⟨p, by rw [hrun, hone, List.foldl_cons, List.foldl_nil, mainTurn_of_todo htodo]⟩

/-- A tick after a mutator's buffer write and after each of its first two RECOMPUTEs, which ask for `g1` and `g2`. -/
def tickedTurns (p g1 g2 : RowGroup) : List Turn := [.main p, .tick, .main g1, .tick, .main g2, .tick]

theorem tickedTurns_lawful (p g1 g2 : RowGroup) : ∀ u ∈ tickedTurns p g1 g2, u.lawful = true :=
  List.all_eq_true.mp (rfl : (tickedTurns p g1 g2).all Turn.lawful = true)

theorem mainCount_tickedTurns (p g1 g2 : RowGroup) : mainCount (tickedTurns p g1 g2) = 3 := rfl

/-- Where a mutator stands after `tickedTurns`: one RECOMPUTE is left. -/
def tickedState (b : BufferWrite) (g1 g2 : RowGroup) (s : State) : State :=
  setTodo [.recompute]
    (emitStep (recomputeWord g2 (emitStep (recomputeWord g1 (emitStep (writeBuffer b s))))))

/-- A RECOMPUTE asked for a stale row-word takes it (R51). -/
theorem mainTurn_recompute {g : RowGroup} {ms : List Micro} {s : State} (hg : s.stale[g] = true) :
    mainTurn g (setTodo (.recompute :: ms) s) = setTodo ms (recomputeWord g s) := by
  rw [mainTurn_setTodo_cons, runMicro, recompute, chooseStale_self hg]

theorem play_tickedTurns (b : BufferWrite) (p : RowGroup) {g1 g2 : RowGroup} (hne : g1 ≠ g2) (s : State) :
    play (tickedTurns p g1 g2) (setTodo (mutatorMicros b) s) = tickedState b g1 g2 s := by
  have hall : ∀ g : RowGroup, (writeBuffer b s).stale[g] = true := by simp [allStale]
  have hg2 : (recomputeWord g1 (emitStep (writeBuffer b s))).stale[g2] = true := by
    rw [(recomputeWord_of_ne _ hne.symm).2]
    exact hall g2
  have h1 := mainTurn_recompute (ms := [.recompute, .recompute]) (s := emitStep (writeBuffer b s)) (hall g1)
  have h2 := mainTurn_recompute (ms := [.recompute])
    (s := emitStep (recomputeWord g1 (emitStep (writeBuffer b s)))) hg2
  calc play (tickedTurns p g1 g2) (setTodo (mutatorMicros b) s)
    _ = emitStep (mainTurn g2 (emitStep (mainTurn g1
          (setTodo [.recompute, .recompute, .recompute] (emitStep (writeBuffer b s)))))) := rfl
    _ = emitStep (mainTurn g2 (setTodo [.recompute, .recompute]
          (emitStep (recomputeWord g1 (emitStep (writeBuffer b s)))))) := by rw [h1]; rfl
    _ = tickedState b g1 g2 s := by rw [h2]; rfl

/-- What the three ticks emit: the old row-word, or the new one where its row-group was taken before (R51, R53). -/
theorem tickedState_events (b : BufferWrite) (g1 g2 : RowGroup) (s : State) :
    let new := fun g => pack s.cfg.toCfgData g (applyWrite b s.px)
    (tickedState b g1 g2 s).events = s.events ++ emissions s.cfg.ledMask
      [s.rw[s.cur],
       if rotate s.cur 1 = g1 then new (rotate s.cur 1) else s.rw[rotate s.cur 1],
       if rotate s.cur 2 = g1 ∨ rotate s.cur 2 = g2 then new (rotate s.cur 2) else s.rw[rotate s.cur 2]] := by
  intro new
  have hc1 : s.cur + 1 = rotate s.cur 1 := add_one_eq_rotate s.cur
  have hc2 : rotate s.cur 1 + 1 = rotate s.cur 2 := by rw [add_one_eq_rotate, rotate_rotate]
  have hw1 : (recomputeWord g1 (emitStep (writeBuffer b s))).rw[rotate s.cur 1] =
      if rotate s.cur 1 = g1 then new (rotate s.cur 1) else s.rw[rotate s.cur 1] := recomputeWord_rw_getElem g1 _ _
  have hw2 : (recomputeWord g2 (emitStep (recomputeWord g1 (emitStep (writeBuffer b s))))).rw[rotate s.cur 2] =
      if rotate s.cur 2 = g1 ∨ rotate s.cur 2 = g2 then new (rotate s.cur 2) else s.rw[rotate s.cur 2] := by
    rw [recomputeWord_rw_getElem, emitStep_rw, recomputeWord_rw_getElem]
    by_cases h1 : rotate s.cur 2 = g1 <;> by_cases h2 : rotate s.cur 2 = g2 <;> simp [h1, h2, new]
  rw [← hw1, ← hw2]
  simp [tickedState, ← hc2, ← hc1]

theorem tickedState_cur (b : BufferWrite) (g1 g2 : RowGroup) (s : State) : (tickedState b g1 g2 s).cur = s.cur := by
  have hturn : ∀ c : RowGroup, c + 1 + 1 + 1 = c := by decide
  exact hturn s.cur

/-- Settles O44: after the third tick one RECOMPUTE is left, which emits nothing; the row-words a mutator leaves do not
depend on the order (`exec_of_mutates`). -/
theorem recomputeOrderIsOpen : Obligations.RecomputeOrderIsOpen := by
  intro s img g1 g2 p ts hr hne henv hmain new
  have hticked : s.env = tickedTurns p g1 g2 ++ ts := henv
  have hmicros : micros (.setImage img) = mutatorMicros (.image img) := rfl
  have hleft : mainCount (tickedTurns p g1 g2) < (setTodo (mutatorMicros (.image img)) s).todo.length := by
    simp [mainCount_tickedTurns, mutatorMicros]
  have hexec : exec (.setImage img) s = runTurns ts (tickedState (.image img) g1 g2 s) := by
    rw [exec_eq_issue, issue_ready _ hr, hticked, hmicros,
      runTurns_append ts (tickedTurns_lawful p g1 g2) hleft, play_tickedTurns _ p hne]
  obtain ⟨q, hrun⟩ := runTurns_last (m := .recompute) (s := tickedState (.image img) g1 g2 s) rfl hmain
  have hnext := hexec.trans hrun
  obtain ⟨-, hrw, -⟩ := exec_of_mutates rfl hnext
  refine ⟨_, hnext, ?_, ?_, fun g => ?_⟩
  · rw [setEnv_events, setTodo_events, runMicro, recompute_events]
    exact tickedState_events (.image img) g1 g2 s
  · rw [setEnv_cur, setTodo_cur, runMicro, recompute_cur, tickedState_cur]
  · rw [hrw]
    simp [packAll, new]

end Sys2Proof.Machine

/-! The command word (R60 to R67): the decoder as the opcode table, and how it meets the encoder. -/

namespace Sys2Proof

/-! ### Decoding by opcode -/

section
variable {C : Command}

theorem decode_of_op_one (h : opField C = 0x1) : decode C = .ok .clearImage := by simp [decode, h]

theorem decode_of_op_two (h : opField C = 0x2) :
    decode C = .ok (.setPixel (rowField C).toNat (colField C).toNat (valField C).toNat) := by simp [decode, h]

theorem decode_of_op_three (h : opField C = 0x3) :
    decode C = .ok (.togglePixel (rowField C).toNat (colField C).toNat (valField C).toNat) := by simp [decode, h]

theorem decode_of_op_four (h : opField C = 0x4) :
    decode C = .ok (.getPixel (rowField C).toNat (colField C).toNat (valField C).toNat) := by simp [decode, h]

theorem decode_of_op_five (h : opField C = 0x5) : decode C = .ok (.setImage (imgField C)) := by simp [decode, h]

theorem decode_of_op_six (h : opField C = 0x6) : decode C = .ok (.setColumn (colField C).toNat (cellsField C)) := by
  simp [decode, h]

theorem decode_of_op_seven (h : opField C = 0x7) : decode C = .ok .refresh := by simp [decode, h]

theorem decode_of_op_reserved (h : opField C = 0x0 ∨ 0x8 ≤ opField C) :
    decode C = .error (.reservedOpcode (opField C)) := by
  have hop : (opField C).toNat = 0 ∨ 8 ≤ (opField C).toNat := h.imp (fun h => by rw [h]; rfl) BitVec.le_def.mp
  unfold decode
  split
  case h_8 => rfl
  all_goals omega

end

/-- The seven rows of the opcode table (R62) and the reserved opcodes (R67) are all there is. -/
theorem op_cases (op : BitVec 4) :
    op = 0x1 ∨ op = 0x2 ∨ op = 0x3 ∨ op = 0x4 ∨ op = 0x5 ∨ op = 0x6 ∨ op = 0x7 ∨ (op = 0x0 ∨ 0x8 ≤ op) := by
  revert op; decide

/-- A mask that covers the opcode leaves it (R60). -/
theorem opField_and {M : Command} (hM : opField M = BitVec.allOnes 4) (C : Command) : opField (C &&& M) = opField C := by
  calc opField (C &&& M)
    _ = opField C &&& opField M := BitVec.extractLsb'_and
    _ = opField C := by rw [hM, BitVec.and_allOnes]

/-- The match of R62, `C AND 0xF0000000`, is on the opcode. -/
theorem opField_of_match {C M : Command} (h : C &&& 0xF0000000 = M) : opField C = opField M := by
  rw [← h, opField_and (by decide)]

/-- Settles O2: the match fixes the opcode, and the fields are the word's number divided down (R63 to R65). -/
theorem decoderMatchesOpcodeTable : Obligations.DecoderMatchesOpcodeTable := by
  intro C row col val
  have hrow : row = (rowField C).toNat := (rowField_toNat C).symm
  have hcol : col = (colField C).toNat := (colField_toNat C).symm
  have hval : val = (valField C).toNat := (valField_toNat C).symm
  rw [hrow, hcol, hval, ← imgField_eq_ofNat, ← cellsField_eq_ofNat, ← opField_toNat, BitVec.ofNat_toNat,
    BitVec.setWidth_eq]
  refine ⟨fun h => decode_of_op_one (opField_of_match h), fun h => decode_of_op_two (opField_of_match h),
    fun h => decode_of_op_three (opField_of_match h), fun h => decode_of_op_four (opField_of_match h),
    fun h => decode_of_op_five (opField_of_match h), fun h => decode_of_op_six (opField_of_match h),
    fun h => decode_of_op_seven (opField_of_match h), fun h => decode_of_op_reserved ?_⟩
  exact h.imp BitVec.eq_of_toNat_eq BitVec.le_def.mpr

/-- Settles O1: the formats are read off the words bit by bit. -/
theorem writtenOutWordsDecode : Obligations.WrittenOutWordsDecode := by
  unfold Obligations.WrittenOutWordsDecode
  decide

/-! ### Decoding what the encoder writes -/

/-- The three pixel commands are well formed under the same condition (R63). -/
theorem pixel_wf_iff {row col val : Nat} :
    (fitsByte row && fitsByte col && fitsByte val) = true ↔ row < 256 ∧ col < 256 ∧ val < 256 := by
  simp [fitsByte, and_assoc]

theorem setColumn_wf_iff {col : Nat} {cells : BitVec 5} : (Instr.setColumn col cells).wf = true ↔ col < 256 :=
  decide_eq_true_iff

/-- A word of format P (R63) whose opcode stands for `command` decodes to it with its operands, which fit their bytes. -/
theorem decode_formatP {op : BitVec 4} {command : Nat → Nat → Nat → Instr}
    (hop : ∀ {C : Command}, opField C = op →
      decode C = .ok (command (rowField C).toNat (colField C).toNat (valField C).toNat))
    {row col val : Nat} (h : (fitsByte row && fitsByte col && fitsByte val) = true) :
    decode (formatP op row col val) = .ok (command row col val) := by
  obtain ⟨hr, hc, hv⟩ := pixel_wf_iff.mp h
  obtain ⟨hopcode, hrow, hcol, hval⟩ := formatP_fields op row col val
  rw [hop hopcode, hrow, hcol, hval, BitVec.toNat_ofNat, BitVec.toNat_ofNat, BitVec.toNat_ofNat, Nat.mod_eq_of_lt hr,
    Nat.mod_eq_of_lt hc, Nat.mod_eq_of_lt hv]

theorem decode_encode {i : Instr} (h : i.wf = true) : decode (encode i) = .ok i := by
  cases i with
  | clearImage => decide
  | setPixel row col val => exact decode_formatP decode_of_op_two h
  | togglePixel row col val => exact decode_formatP decode_of_op_three h
  | getPixel row col val => exact decode_formatP decode_of_op_four h
  | setImage img =>
    obtain ⟨hop, himg⟩ := setImage_fields img
    rw [decode_of_op_five hop, himg]
  | setColumn col cells =>
    obtain ⟨hop, hcol, hcells⟩ := setColumn_fields col cells
    rw [decode_of_op_six hop, hcol, hcells, BitVec.toNat_ofNat, Nat.mod_eq_of_lt (setColumn_wf_iff.mp h)]
  | refresh => decide

/-- Settles O3, by the fields of the word of each command. -/
theorem decodeOfEncodeIsIdentity : Obligations.DecodeOfEncodeIsIdentity := fun _ h => decode_encode h

/-! ### Encoding what the decoder reads -/

section
variable {C : Command} {op : BitVec 4}

/-- Format P with its unused bits cleared (R61, R66). -/
theorem formatP_of_fields (hop : opField C = op) :
    formatP op (rowField C).toNat (colField C).toNat (valField C).toNat = C &&& 0xF0FFFFFF := by
  have hparts : op ++ C.extractLsb' 24 4 ++ rowField C ++ colField C ++ valField C = C := by
    ext i hi
    simp only [← hop, opField, rowField, colField, valField, BitVec.getElem_append, BitVec.getElem_extractLsb']
    grind
  calc formatP op (rowField C).toNat (colField C).toNat (valField C).toNat
    _ = (op ++ C.extractLsb' 24 4 ++ rowField C ++ colField C ++ valField C) &&&
        (BitVec.allOnes 4 ++ 0#4 ++ BitVec.allOnes 8 ++ BitVec.allOnes 8 ++ BitVec.allOnes 8) := by
      simp only [formatP, BitVec.ofNat_toNat, BitVec.setWidth_eq, BitVec.and_append, BitVec.and_allOnes, BitVec.and_zero]
    _ = C &&& 0xF0FFFFFF := congrArg (· &&& _) hparts

/-- Format I with its unused bits cleared (R61, R66). -/
theorem formatI_of_fields (hop : opField C = op) : op ++ 0#3 ++ imgField C = C &&& 0xF1FFFFFF := by
  have hparts : op ++ C.extractLsb' 25 3 ++ imgField C = C := by
    ext i hi
    simp only [← hop, opField, imgField, BitVec.getElem_append, BitVec.getElem_extractLsb']
    grind
  calc op ++ 0#3 ++ imgField C
    _ = (op ++ C.extractLsb' 25 3 ++ imgField C) &&& (BitVec.allOnes 4 ++ 0#3 ++ BitVec.allOnes 25) := by
      simp only [BitVec.and_append, BitVec.and_allOnes, BitVec.and_zero]
    _ = C &&& 0xF1FFFFFF := congrArg (· &&& _) hparts

/-- Format C with its unused bits cleared (R61, R66). -/
theorem formatC_of_fields (hop : opField C = op) :
    op ++ 0#12 ++ colField C ++ 0#3 ++ cellsField C = C &&& 0xF000FF1F := by
  have hparts : op ++ C.extractLsb' 16 12 ++ colField C ++ C.extractLsb' 5 3 ++ cellsField C = C := by
    ext i hi
    simp only [← hop, opField, colField, cellsField, BitVec.getElem_append, BitVec.getElem_extractLsb']
    grind
  calc op ++ 0#12 ++ colField C ++ 0#3 ++ cellsField C
    _ = (op ++ C.extractLsb' 16 12 ++ colField C ++ C.extractLsb' 5 3 ++ cellsField C) &&&
        (BitVec.allOnes 4 ++ 0#12 ++ BitVec.allOnes 8 ++ 0#3 ++ BitVec.allOnes 5) := by
      simp only [BitVec.and_append, BitVec.and_allOnes, BitVec.and_zero]
    _ = C &&& 0xF000FF1F := congrArg (· &&& _) hparts

/-- The format without operands, with its unused bits cleared (R61, R66). -/
theorem formatN_of_fields (hop : opField C = op) : op ++ 0#28 = C &&& 0xF0000000 := by
  have hparts : op ++ C.extractLsb' 0 28 = C := by
    ext i hi
    simp only [← hop, opField, BitVec.getElem_append, BitVec.getElem_extractLsb']
    grind
  calc op ++ 0#28
    _ = (op ++ C.extractLsb' 0 28) &&& (BitVec.allOnes 4 ++ 0#28) := by
      simp only [BitVec.and_append, BitVec.and_allOnes, BitVec.and_zero]
    _ = C &&& 0xF0000000 := congrArg (· &&& _) hparts

end

/-- The operands the decoder reads are bytes (R63). -/
theorem pixel_wf_toNat (row col val : BitVec 8) : (fitsByte row.toNat && fitsByte col.toNat && fitsByte val.toNat) = true :=
  pixel_wf_iff.mpr ⟨row.isLt, col.isLt, val.isLt⟩

theorem wf_and_encode_of_decode {C : Command} {i : Instr} (h : decode C = .ok i) :
    i.wf = true ∧ encode i = C &&& namedBits C := by
  obtain hop | hop | hop | hop | hop | hop | hop | hop := op_cases (opField C)
  · obtain rfl := Except.ok.inj ((decode_of_op_one hop).symm.trans h)
    exact ⟨rfl, (formatN_of_fields hop).trans (by simp [namedBits, hop])⟩
  · obtain rfl := Except.ok.inj ((decode_of_op_two hop).symm.trans h)
    exact ⟨pixel_wf_toNat _ _ _, (formatP_of_fields hop).trans (by simp [namedBits, hop])⟩
  · obtain rfl := Except.ok.inj ((decode_of_op_three hop).symm.trans h)
    exact ⟨pixel_wf_toNat _ _ _, (formatP_of_fields hop).trans (by simp [namedBits, hop])⟩
  · obtain rfl := Except.ok.inj ((decode_of_op_four hop).symm.trans h)
    exact ⟨pixel_wf_toNat _ _ _, (formatP_of_fields hop).trans (by simp [namedBits, hop])⟩
  · obtain rfl := Except.ok.inj ((decode_of_op_five hop).symm.trans h)
    exact ⟨rfl, (formatI_of_fields hop).trans (by simp [namedBits, hop])⟩
  · obtain rfl := Except.ok.inj ((decode_of_op_six hop).symm.trans h)
    refine ⟨setColumn_wf_iff.mpr (colField C).isLt, Eq.trans ?_ ((formatC_of_fields hop).trans (by simp [namedBits, hop]))⟩
    rw [encode, BitVec.ofNat_toNat, BitVec.setWidth_eq]
    rfl
  · obtain rfl := Except.ok.inj ((decode_of_op_seven hop).symm.trans h)
    exact ⟨rfl, (formatN_of_fields hop).trans (by simp [namedBits, hop])⟩
  · rw [decode_of_op_reserved hop] at h
    cases h

/-- Settles O4, format by format. -/
theorem encodeOfDecodeKeepsNamedBits : Obligations.EncodeOfDecodeKeepsNamedBits := fun _ _ h => wf_and_encode_of_decode h

/-! ### The unused bits -/

/-- Every format names the opcode (R61). -/
theorem opField_namedBits (C : Command) : opField (namedBits C) = BitVec.allOnes 4 := by
  unfold namedBits
  split <;> decide

/-- The opcode decides which bits the format names (R61, R62). -/
theorem namedBits_congr {C C' : Command} (h : opField C = opField C') : namedBits C = namedBits C' := by
  simp only [namedBits, h]

theorem and_eq_and_of_xor_and {w : Nat} {x y mask : BitVec w} (h : (x ^^^ y) &&& mask = 0) : x &&& mask = y &&& mask := by
  refine BitVec.xor_eq_zero_iff.mp (Eq.trans ?_ h)
  ext i hi
  cases hm : mask[i] <;> simp [hm]

/-- Every word is one of the seven commands or a reserved opcode (R66, R67). -/
theorem decode_total (C : Command) :
    (∃ i, decode C = .ok i) ∨
      (decode C = .error (.reservedOpcode (opField C)) ∧ (opField C = 0x0 ∨ 0x8 ≤ opField C)) := by
  obtain hop | hop | hop | hop | hop | hop | hop | hop := op_cases (opField C)
  · exact .inl ⟨_, decode_of_op_one hop⟩
  · exact .inl ⟨_, decode_of_op_two hop⟩
  · exact .inl ⟨_, decode_of_op_three hop⟩
  · exact .inl ⟨_, decode_of_op_four hop⟩
  · exact .inl ⟨_, decode_of_op_five hop⟩
  · exact .inl ⟨_, decode_of_op_six hop⟩
  · exact .inl ⟨_, decode_of_op_seven hop⟩
  · exact .inr ⟨decode_of_op_reserved hop, hop⟩

/-- The word with its unused bits cleared is the one the command is encoded to, so it decodes to the same. -/
theorem decode_and_namedBits (C : Command) : decode (C &&& namedBits C) = decode C := by
  obtain ⟨i, hi⟩ | ⟨herror, hop⟩ := decode_total C
  · obtain ⟨hwf, hencode⟩ := wf_and_encode_of_decode hi
    rw [← hencode, decode_encode hwf, hi]
  · have hsame := opField_and (opField_namedBits C) C
    rw [herror, decode_of_op_reserved (hsame ▸ hop), hsame]

theorem decode_eq_of_agree {C C' : Command} (h : (C ^^^ C') &&& namedBits C = 0) : decode C = decode C' := by
  have hmasked : C &&& namedBits C = C' &&& namedBits C := and_eq_and_of_xor_and h
  have hop : opField C = opField C' := by
    rw [← opField_and (opField_namedBits C) C, hmasked, opField_and (opField_namedBits C)]
  rw [← decode_and_namedBits C, hmasked, namedBits_congr hop, decode_and_namedBits]

/-- An operand counts by its low byte in the word. -/
theorem formatP_low_bytes (op : BitVec 4) (row col val : Nat) :
    formatP op (BitVec.ofNat 8 row).toNat (BitVec.ofNat 8 col).toNat (BitVec.ofNat 8 val).toNat =
      formatP op row col val := by
  simp only [formatP, BitVec.ofNat_toNat, BitVec.setWidth_eq]

/-- What the encoder writes for any command is the word of a well-formed one. -/
theorem exists_wf_encode_eq (i : Instr) : ∃ j : Instr, j.wf = true ∧ encode j = encode i := by
  cases i with
  | clearImage => exact ⟨.clearImage, rfl, rfl⟩
  | setPixel row col val => exact ⟨.setPixel _ _ _, pixel_wf_toNat _ _ _, formatP_low_bytes 0x2 row col val⟩
  | togglePixel row col val => exact ⟨.togglePixel _ _ _, pixel_wf_toNat _ _ _, formatP_low_bytes 0x3 row col val⟩
  | getPixel row col val => exact ⟨.getPixel _ _ _, pixel_wf_toNat _ _ _, formatP_low_bytes 0x4 row col val⟩
  | setImage img => exact ⟨.setImage img, rfl, rfl⟩
  | setColumn col cells =>
    refine ⟨.setColumn (BitVec.ofNat 8 col).toNat cells, setColumn_wf_iff.mpr (BitVec.ofNat 8 col).isLt, ?_⟩
    rw [encode, BitVec.ofNat_toNat, BitVec.setWidth_eq, encode]
  | refresh => exact ⟨.refresh, rfl, rfl⟩

/-- The encoder writes unused bits 0 (R66), since decoding and encoding again clears them. -/
theorem encode_and_namedBits (i : Instr) : encode i &&& namedBits (encode i) = encode i := by
  obtain ⟨j, hwf, hj⟩ := exists_wf_encode_eq i
  obtain ⟨-, hencode⟩ := wf_and_encode_of_decode (decode_encode hwf)
  rw [← hj, ← hencode]

namespace Machine

/-- Port M's turn looks at a word through the decoder only. -/
theorem issueNext_congr {C C' : Command} (h : decode C = decode C') (Cs : List Command) (s : State) :
    issueNext { s with portM := C :: Cs } = issueNext { s with portM := C' :: Cs } := by
  simp only [issueNext, fetch, setPortM, h]

/-- Settles O5: a word and the word with its unused bits cleared decode alike, and a step sees a word through the decoder
only. -/
theorem unusedBitsTakeNoPart : Obligations.UnusedBitsTakeNoPart := by
  refine ⟨fun C C' h => decode_eq_of_agree h, fun C C' Cs s h => issueNext_congr (decode_eq_of_agree h) Cs s, fun i => ?_,
    decode_total⟩
  calc encode i &&& ~~~namedBits (encode i)
    _ = (encode i &&& namedBits (encode i)) &&& ~~~namedBits (encode i) := by rw [encode_and_namedBits]
    _ = encode i &&& (namedBits (encode i) &&& ~~~namedBits (encode i)) := BitVec.and_assoc _ _ _
    _ = 0 := by rw [BitVec.and_not_self]; exact BitVec.and_zero

theorem issueNext_of_reserved {s : State} {C : Command} {Cs : List Command} {op : BitVec 4} (hC : s.portM = C :: Cs)
    (h : decode C = .error (.reservedOpcode op)) : issueNext s = .next (setPortM Cs s) := by
  simp [issueNext, fetch, hC, h, reservedNoOp]

/-- Settles O9: port M's turn takes the word, and the decoder gives it no command. -/
theorem reservedOpcodesDoNothing : Obligations.ReservedOpcodesDoNothing := by
  intro s C Cs ts hop hr hp hC
  rw [step_of_portMGoes hr hp, issueNext_of_reserved (s := setEnv ts s) hC (decode_of_op_reserved hop)]
  rfl

end Machine

end Sys2Proof

/-! The packing function (R70 to R73), what a refresh step shows of it (R78), and REF-MB1 (R75). -/

namespace Sys2Proof.Machine

/-! ### Settled: packing -/

/-- Settles O21, by K2. -/
theorem packXorsEachCellIntoItsBit : Obligations.PackXorsEachCellIntoItsBit := by
  intro c g px
  obtain ⟨hs, -, hK2, -, -⟩ := c.legal
  exact ⟨fun k i hk => pack_testBit_of_slot _ g px k i hs hK2 hk, fun b hb => pack_testBit_of_no_slot _ g px b hb⟩

/-- A word is the row-word when it has the bits that R72 gives to the occupied slots, and the base mask's elsewhere. -/
theorem pack_eq_of_testBit {c : Cfg} {g : RowGroup} {px : Pixels} {w : Word}
    (hslot : ∀ (k : Slot) (i : CellIdx), c.cellAt g k = some i →
      w.testBit (c.posAt g k) = ((c.baseAt g).testBit (c.posAt g k) ^^ px[i]))
    (hno : ∀ b : Nat, (∀ k : Slot, c.cellAt g k ≠ none → c.posAt g k ≠ b) → w.testBit b = (c.baseAt g).testBit b) :
    pack c.toCfgData g px = w := by
  obtain ⟨hpackSlot, hpackNo⟩ := packXorsEachCellIntoItsBit c g px
  refine Nat.eq_of_testBit_eq fun b => ?_
  by_cases hb : ∀ k : Slot, c.cellAt g k ≠ none → c.posAt g k ≠ b
  · rw [hpackNo b hb, hno b hb]
  · push Not at hb
    obtain ⟨k, hk, rfl⟩ := hb
    obtain ⟨i, hi⟩ := Option.ne_none_iff_exists'.mp hk
    rw [hpackSlot k i hi, hslot k i hi]

theorem getElem_blank_set (i j : CellIdx) : (blank.set i.val true)[j] = decide (i = j) := by
  simp [blank, Vector.getElem_set, Fin.ext_iff]

/-- A cell lies in one slot only (K1). -/
theorem slot_unique {c : CfgData} (hK1 : c.K1) {g g' : RowGroup} {k k' : Slot} {i : CellIdx} (h : c.cellAt g k = some i)
    (h' : c.cellAt g' k' = some i) : g' = g ∧ k' = k := by
  obtain ⟨_, _, -, huniq⟩ := hK1 i
  obtain ⟨rfl, rfl⟩ := huniq g k h
  exact huniq g' k' h'

/-- Settles O22: by K1 the one set cell lies in no slot but (g0, k0), by K2 no other slot lies at that bit. -/
theorem singlePixelFlipsOneBit : Obligations.SinglePixelFlipsOneBit := by
  refine fun c g => ⟨pack_blank _ g, fun g0 k0 i hi => ?_⟩
  obtain ⟨-, hK1, hK2, -, -⟩ := c.legal
  have hocc : c.cellAt g0 k0 ≠ none := by simp [hi]
  split
  case isTrue hg =>
    subst hg
    refine pack_eq_of_testBit (fun k j hj => ?_) (fun b hb => ?_)
    · have hsame : c.posAt g k0 = c.posAt g k ↔ i = j := by
        constructor
        · intro hpos
          obtain rfl := hK2 g k0 k hocc (by simp [hj]) hpos
          exact Option.some.inj (hi.symm.trans hj)
        · rintro rfl
          rw [(slot_unique hK1 hi hj).2]
      rw [getElem_blank_set, Nat.testBit_xor, Nat.one_shiftLeft, Nat.testBit_two_pow, decide_eq_decide.mpr hsame]
    · rw [Nat.testBit_xor, Nat.one_shiftLeft, Nat.testBit_two_pow, decide_eq_false (hb k0 hocc), Bool.xor_false]
  case isFalse hg =>
    refine pack_eq_of_testBit (fun k j hj => ?_) (fun b _ => rfl)
    have hne : i ≠ j := by
      rintro rfl
      exact hg (slot_unique hK1 hi hj).1
    rw [getElem_blank_set, decide_eq_false hne, Bool.xor_false]

/-- Settles O23: at a slot both sides are the XOR of the two cells, elsewhere both are 0. -/
theorem packIsLinear : Obligations.PackIsLinear := by
  intro c g a b
  obtain ⟨haSlot, haNo⟩ := packXorsEachCellIntoItsBit c g a
  obtain ⟨hbSlot, hbNo⟩ := packXorsEachCellIntoItsBit c g b
  have hpack : pack c.toCfgData g (Vector.ofFn fun i => a[i] ^^ b[i]) =
      pack c.toCfgData g a ^^^ pack c.toCfgData g b ^^^ c.baseAt g := by
    refine pack_eq_of_testBit (fun k i hi => ?_) (fun n hn => ?_)
    · simp only [Nat.testBit_xor, haSlot k i hi, hbSlot k i hi, Fin.getElem_fin, Vector.getElem_ofFn]
      cases (c.baseAt g).testBit (c.posAt g k) <;> cases a[i.val] <;> cases b[i.val] <;> rfl
    · simp only [Nat.testBit_xor, haNo n hn, hbNo n hn]
      cases (c.baseAt g).testBit n <;> rfl
  rw [hpack]
  ac_rfl

/-- Settles O24: XORing the base mask off leaves the cell of each slot, and by K1 every cell has a slot. -/
theorem packIsInjective : Obligations.PackIsInjective := by
  intro c
  have hcell : ∀ (px : Pixels) (g : RowGroup) (k : Slot) (i : CellIdx), c.cellAt g k = some i →
      px[i] = (pack c.toCfgData g px ^^^ c.baseAt g).testBit (c.posAt g k) := by
    intro px g k i hi
    rw [Nat.testBit_xor, (packXorsEachCellIntoItsBit c g px).1 k i hi]
    cases (c.baseAt g).testBit (c.posAt g k) <;> cases px[i] <;> rfl
  refine ⟨hcell, fun a b hab => ?_⟩
  obtain ⟨-, hK1, -, -, -⟩ := c.legal
  have hword (g : RowGroup) : pack c.toCfgData g a = pack c.toCfgData g b := by
    simpa [packAll] using congrArg (·[g]) hab
  ext1 j hj
  obtain ⟨g, k, hi, -⟩ := hK1 ⟨j, hj⟩
  calc a[j]
    _ = (pack c.toCfgData g a ^^^ c.baseAt g).testBit (c.posAt g k) := hcell a g k _ hi
    _ = (pack c.toCfgData g b ^^^ c.baseAt g).testBit (c.posAt g k) := by rw [hword]
    _ = b[j] := (hcell b g k _ hi).symm

/-- Settles O25: K3 for the bits outside LED_MASK, the types of R7 for the width. -/
theorem packStaysInsideLedMask : Obligations.PackStaysInsideLedMask := by
  intro c g px
  obtain ⟨hs, -⟩ := c.legal
  exact ⟨pack_confined c g px, pack_lt _ g px hs⟩

/-! ### Settled: what a refresh step shows -/

/-- An EMITSTEP emits the row-word at the cursor, and `out` shows it inside LED_MASK only (R78, R100). -/
theorem emitStep_shows_rowWord {s : State} (hs : s.Sized) (hc : s.Confined) :
    (emitStep s).events = s.events ++ emissions s.cfg.ledMask [s.rw[s.cur]] ∧
      (emitStep s).out &&& s.cfg.ledMask = s.rw[s.cur] ∧
      (emitStep s).out &&& s.cfg.notLedMask = s.out &&& s.cfg.notLedMask := by
  obtain ⟨-, hrw⟩ := hs
  refine ⟨?_, ?_, ?_⟩
  · simp [emissions]
  · rw [emitStep_out]
    exact setInside_and_mask (hrw s.cur) (hc s.cur)
  · rw [emitStep_out]
    exact setInside_and_notW (hc s.cur)

/-- Settles O46: each of the turns is one EMITSTEP. -/
theorem refreshShowsTheRowWord : Obligations.RefreshShowsTheRowWord := by
  intro s hs hc
  have hshows := emitStep_shows_rowWord hs hc
  refine ⟨fun hr viaTick => ⟨_, refreshBy_ready viaTick hr, hshows⟩, fun u ms hu => ?_⟩
  obtain rfl | ⟨hmain, htodo⟩ := hu
  · exact ⟨_, rfl, hshows⟩
  · cases u with
    | main p => exact ⟨setTodo ms (emitStep s), congrArg Host.Outcome.next (mainTurn_of_todo htodo), hshows⟩
    | _ => cases hmain

/-! ### Settled: the reference configuration -/

/-- The bits of the base masks of REF-MB1: select line 13+g and the nine slot lines (R75). -/
theorem testBit_refMb1_base (g : RowGroup) (b : Nat) :
    (Config.refMb1.baseAt g).testBit b = decide (b = 13 + g ∨ 4 ≤ b ∧ b ≤ 12) := by
  have hbase : Config.refMb1.baseAt g = 2 ^ (13 + g.val) ||| (2 ^ 9 - 1) <<< 4 := by revert g; decide
  rw [hbase, Nat.testBit_or, Nat.testBit_two_pow, Nat.testBit_shiftLeft, Nat.testBit_two_pow_sub_one,
    ← Bool.decide_and, ← Bool.decide_or, decide_eq_decide]
  omega

theorem refMb1_posAt (g : RowGroup) (k : Slot) : Config.refMb1.posAt g k = 4 + k := by revert g k; decide

/-- A select line of REF-MB1 carries no slot, so it is the base mask's. -/
theorem testBit_refMb1_select (g g' : RowGroup) (px : Pixels) :
    (pack Config.refMb1.toCfgData g px).testBit (13 + g') = decide (g' = g) := by
  rw [pack_testBit_of_no_slot _ g px _ fun k _ => by have := refMb1_posAt g k; omega, testBit_refMb1_base,
    decide_eq_decide, Fin.ext_iff]
  omega

/-- The base mask has every slot line at 1, so a cell of value 1 drives its line to 0. -/
theorem testBit_refMb1_slot (g : RowGroup) (k : Slot) (px : Pixels) :
    (pack Config.refMb1.toCfgData g px).testBit (4 + k) = false ↔
      ∃ i : CellIdx, Config.refMb1.cellAt g k = some i ∧ px[i] = true := by
  have hbase : (Config.refMb1.baseAt g).testBit (4 + k) = true := by
    rw [testBit_refMb1_base, decide_eq_true_eq]
    omega
  obtain ⟨hslot, hno⟩ := packXorsEachCellIntoItsBit Config.refMb1 g px
  cases hcell : Config.refMb1.cellAt g k with
  | some i =>
    have hbit := hslot k i hcell
    rw [refMb1_posAt, hbase] at hbit
    simp [hbit]
  | none =>
    have hbit := hno (4 + k) fun k' hk' hpos => by
      rw [refMb1_posAt] at hpos
      obtain rfl : k' = k := Fin.ext (by omega)
      exact hk' hcell
    simp [hbit, hbase]

/-- Settles O57: the table is compared value by value, and the row-words follow from the packing function. -/
theorem referenceConfigurationFollowsItsTable : Obligations.ReferenceConfigurationFollowsItsTable := by
  obtain ⟨-, hK⟩ := Config.refMb1.legal
  refine ⟨rfl, rfl, fun b => ?_, testBit_refMb1_base, fun g k => ⟨refMb1_posAt g k, ?_⟩, by decide, hK, fun g px =>
    ⟨fun g' => testBit_refMb1_select g g' px, fun k => testBit_refMb1_slot g k px⟩⟩
  · have hmask : Config.refMb1.ledMask = (2 ^ 12 - 1) <<< 4 := by decide
    rw [hmask, Nat.testBit_shiftLeft, Nat.testBit_two_pow_sub_one, ← Bool.decide_and, decide_eq_decide]
    omega
  · revert g k; decide

end Sys2Proof.Machine

/-! The assembler's lines (R79 to R81): the cell strings, and each line as the word of its command. -/

namespace Sys2Proof

/-! ### Cell strings as rows of their cells -/

/-- The '/' that may stand between two rows (R80). -/
def slashText (slash : Bool) : List Char := if slash then ['/'] else []

/-- The characters of the cells `bs` in rows of five, with a '/' between two rows where `slashes` says so (R80). -/
def rowsText : List Bool → List Bool → List Char
  | bs, [] => bs.map cellText
  | bs, slash :: slashes => (bs.take 5).map cellText ++ slashText slash ++ rowsText (bs.drop 5) slashes

theorem slashText_cases {slash : List Char} (h : slash = [] ∨ slash = ['/']) : ∃ b, slash = slashText b := by
  obtain rfl | rfl := h
  · exact ⟨false, rfl⟩
  · exact ⟨true, rfl⟩

/-- The strings that are read are exactly the rows of the cells read from them (R80). -/
theorem rowChars_eq_some_iff {n : Nat} {cs : List Char} {bs : List Bool} :
    rowChars (n + 1) cs = some bs ↔
      bs.length = 5 * (n + 1) ∧ ∃ slashes : List Bool, slashes.length = n ∧ cs = rowsText bs slashes := by
  induction n generalizing cs bs with
  | zero =>
    constructor
    · intro h
      obtain ⟨row, more, slash, rest, _, rfl, hs, rfl, hm⟩ := rowChars_succ_eq_some.1 h
      obtain ⟨rfl, rfl⟩ := rowChars_zero_eq_some.1 hm
      obtain rfl : slash = [] := by simpa using hs
      exact ⟨length_of_rowChars h, [], rfl, by simp [rowsText]⟩
    · rintro ⟨hl, slashes, hs, rfl⟩
      obtain rfl := List.eq_nil_of_length_eq_zero hs
      exact rowChars_succ_eq_some.2 ⟨bs, [], [], [], hl, by simp, .inl rfl, by simp [rowsText], rfl⟩
  | succ n ih =>
    constructor
    · intro h
      obtain ⟨row, more, slash, rest, hrow, rfl, hs, rfl, hm⟩ := rowChars_succ_eq_some.1 h
      obtain ⟨-, slashes, hlen, rfl⟩ := ih.1 hm
      obtain ⟨b, rfl⟩ := slashText_cases (hs.imp_right And.right)
      exact ⟨length_of_rowChars h, b :: slashes, by simp [hlen], by simp [rowsText, ← hrow]⟩
    · rintro ⟨hl, slashes, hs, rfl⟩
      match slashes, hs with
      | b :: slashes, hs =>
        have hm : rowChars (n + 1) (rowsText (bs.drop 5) slashes) = some (bs.drop 5) :=
          ih.2 ⟨by rw [List.length_drop, hl]; omega, slashes, by simpa using hs, rfl⟩
        refine rowChars_succ_eq_some.2 ⟨bs.take 5, bs.drop 5, slashText b, _, by simp [hl],
          (List.take_append_drop 5 bs).symm, ?_, rfl, hm⟩
        cases b <;> simp [slashText]

/-- The cells of a field, in order. -/
def fieldCells {n : Nat} (w : BitVec n) : List Bool := List.ofFn fun j : Fin n => w.getLsbD j

@[simp] theorem length_fieldCells {n : Nat} (w : BitVec n) : (fieldCells w).length = n := List.length_ofFn

/-- The field of the right number of cells has these cells. -/
theorem fieldCells_cellBits {n : Nat} {cells : List Bool} (h : cells.length = n) : fieldCells (cellBits n cells) = cells := by
  refine List.ext_getElem (by simp [h]) fun j hj hj' => ?_
  simp [fieldCells, getElem_cellBits, hj']

/-- The field that is read is the one whose cells the string has (R80). -/
theorem map_cellBits_rowChars_eq_some {n m : Nat} (hn : 5 * m = n) {cs : List Char} {w : BitVec n} :
    (rowChars m cs).map (cellBits n) = some w ↔ rowChars m cs = some (fieldCells w) := by
  rw [Option.map_eq_some_iff]
  constructor
  · rintro ⟨bs, hbs, rfl⟩
    rw [fieldCells_cellBits ((length_of_rowChars hbs).trans hn), hbs]
  · exact fun h => ⟨_, h, cellBits_ofFn w⟩

theorem assemble_setImage_iff {image : List Char} {i : Instr} :
    assemble (.setImage image) = some i ↔
      ∃ img : BitVec 25, i = .setImage img ∧ rowChars 5 image = some (fieldCells img) := by
  simp only [← map_cellBits_rowChars_eq_some (n := 25) (m := 5) rfl]
  cases h : rowChars 5 image <;> simp [assemble, h, eq_comm]

theorem assemble_setColumn_iff {col : Nat} {string : List Char} {i : Instr} :
    assemble (.setColumn col string) = some i ↔
      ∃ cells : BitVec 5, i = .setColumn col cells ∧ rowChars 1 string = some (fieldCells cells) := by
  simp only [← map_cellBits_rowChars_eq_some (n := 5) (m := 1) rfl]
  cases h : rowChars 1 string <;> simp [assemble, h, eq_comm]

theorem rowChars_column_iff {cells : BitVec 5} {string : List Char} :
    rowChars 1 string = some (fieldCells cells) ↔ string = List.ofFn fun j : Fin 5 => cellText (cells.getLsbD j) := by
  have htext : (fieldCells cells).map cellText = List.ofFn fun j : Fin 5 => cellText (cells.getLsbD j) := List.map_ofFn
  rw [rowChars_eq_some_iff (n := 0), ← htext]
  simp [rowsText]

/-- Row `r` + 1 of an image, as characters (R80). -/
def imageRowText (img : BitVec 25) (r : Nat) : List Char := List.ofFn fun c : Fin 5 => cellText (img.getLsbD (5 * r + c))

theorem rowsText_image (img : BitVec 25) (s₁ s₂ s₃ s₄ : Bool) :
    rowsText (fieldCells img) [s₁, s₂, s₃, s₄] =
      imageRowText img 0 ++ slashText s₁ ++ imageRowText img 1 ++ slashText s₂ ++ imageRowText img 2 ++ slashText s₃ ++
        imageRowText img 3 ++ slashText s₄ ++ imageRowText img 4 := by
  simp only [rowsText, List.append_assoc]
  rfl

theorem rowChars_image_iff {img : BitVec 25} {image : List Char} :
    rowChars 5 image = some (fieldCells img) ↔
      ∃ s₁ s₂ s₃ s₄ : Bool, image = rowsText (fieldCells img) [s₁, s₂, s₃, s₄] := by
  rw [rowChars_eq_some_iff (n := 4)]
  constructor
  · rintro ⟨-, slashes, hlen, rfl⟩
    match slashes, hlen with
    | [s₁, s₂, s₃, s₄], _ => exact ⟨s₁, s₂, s₃, s₄, rfl⟩
  · rintro ⟨s₁, s₂, s₃, s₄, rfl⟩
    exact ⟨length_fieldCells img, [s₁, s₂, s₃, s₄], rfl, rfl⟩

/-- Settles O56: the strings read are the rows of their cells, and the cells are the bits of the field. -/
theorem cellStringsAreReadBitByBit : Obligations.CellStringsAreReadBitByBit := by
  unfold Obligations.CellStringsAreReadBitByBit
  intro cell imageRow split
  refine ⟨fun image i => ?_, fun image img h n => ?_, fun col string i => ?_⟩
  · rw [assemble_setImage_iff]
    simp only [rowChars_image_iff, rowsText_image, ← exists_and_left]
    rfl
  · obtain ⟨img', himg, hcells⟩ := assemble_setImage_iff.1 h
    obtain rfl := Instr.setImage.inj himg
    rw [filter_of_rowChars hcells, fieldCells, List.map_ofFn, List.getElem?_ofFn]
    split <;> rfl
  · rw [assemble_setColumn_iff]
    simp only [rowChars_column_iff]
    rfl

/-! ### Lines with operands -/

/-- A text that stands for one operand: not empty, without a blank, a comma or a ';' (R79). -/
def OperandText (o : List Char) : Prop := o ≠ [] ∧ ' ' ∉ o ∧ ',' ∉ o ∧ ';' ∉ o

/-- Operands as a line writes them: a comma and a blank between two (R79). -/
def operandList (os : List (List Char)) : List Char := [',', ' '].intercalate os

theorem operandList_singleton (o : List Char) : operandList [o] = o := List.intercalate_singleton

theorem operandList_cons_cons (o p : List Char) (os : List (List Char)) :
    operandList (o :: p :: os) = o ++ ',' :: ' ' :: operandList (p :: os) := by
  simp [operandList, List.intercalate_cons_cons]

/-- Cutting the operands apart at the commas and trimming them gives them back. -/
theorem splitCommas_operandList {o : List Char} {os : List (List Char)} (h : ∀ x ∈ o :: os, OperandText x) :
    (splitCommas (' ' :: operandList (o :: os))).map trimBlanks = o :: os := by
  induction os generalizing o with
  | nil =>
    obtain ⟨-, hblank, hcomma, -⟩ := h o List.mem_cons_self
    have hno : ',' ∉ ' ' :: o := by simp [hcomma]
    rw [operandList_singleton, splitCommas_of_not_mem hno, List.map_singleton, trimBlanks_blank_cons hblank]
  | cons p os ih =>
    obtain ⟨-, hblank, hcomma, -⟩ := h o List.mem_cons_self
    have hno : ',' ∉ ' ' :: o := by simp [hcomma]
    rw [operandList_cons_cons, ← List.cons_append, splitCommas_append hno, List.map_cons,
      trimBlanks_blank_cons hblank, ih fun x hx => h x (List.mem_cons_of_mem _ hx)]

/-- The operands of a line hold no ';' and have no blank at their ends. -/
theorem operandList_bounds {o : List Char} {os : List (List Char)} (h : ∀ x ∈ o :: os, OperandText x) :
    operandList (o :: os) ≠ [] ∧ ';' ∉ operandList (o :: os) ∧ (operandList (o :: os)).head? ≠ some ' ' ∧
      (operandList (o :: os)).getLast? ≠ some ' ' := by
  obtain ⟨hne, hblank, -, hsemi⟩ := h o List.mem_cons_self
  have hhead : o.head? ≠ some ' ' := fun hh => hblank (List.mem_of_mem_head? hh)
  induction os generalizing o with
  | nil =>
    rw [operandList_singleton]
    exact ⟨hne, hsemi, hhead, fun hl => hblank (List.mem_of_getLast? hl)⟩
  | cons p os ih =>
    have hrest : ∀ x ∈ p :: os, OperandText x := fun x hx => h x (List.mem_cons_of_mem _ hx)
    obtain ⟨hpne, hpblank, -, hpsemi⟩ := hrest p List.mem_cons_self
    obtain ⟨hne', hsemi', -, hlast⟩ := ih hrest hpne hpblank hpsemi fun hh => hpblank (List.mem_of_mem_head? hh)
    rw [operandList_cons_cons]
    refine ⟨by simp, by simp [hsemi, hsemi'], ?_, ?_⟩
    · rwa [List.head?_append_of_ne_nil _ hne]
    · have hsplit : o ++ ',' :: ' ' :: operandList (p :: os) = (o ++ [',', ' ']) ++ operandList (p :: os) := by simp
      rwa [hsplit, List.getLast?_append_of_ne_nil _ hne']

/-- A mnemonic, a blank and operands read as the table's line of that name with these operands (R79). -/
theorem parseLine_operandList {name o : List Char} {os : List (List Char)}
    (hname : name ≠ [] ∧ ' ' ∉ name ∧ ';' ∉ name) (h : ∀ x ∈ o :: os, OperandText x) :
    parseLine (name ++ ' ' :: operandList (o :: os)) = lineOf name (o :: os) := by
  obtain ⟨hne, hblank, hsemi⟩ := hname
  obtain ⟨hops, hopsSemi, hhead, hlast⟩ := operandList_bounds h
  rw [parseLine_operands hne hblank hsemi hops hopsSemi hhead hlast, splitCommas_operandList h]

theorem operandText_toDigits (n : Nat) : OperandText (Nat.toDigits 10 n) :=
  ⟨Nat.toDigits_ne_nil, not_mem_toDigits (by decide), not_mem_toDigits (by decide), not_mem_toDigits (by decide)⟩

/-- A cell string that is read holds cell characters and '/' only. -/
theorem operandText_of_rowChars {n : Nat} {cs : List Char} {bs : List Bool} (h : rowChars (n + 1) cs = some bs) :
    OperandText cs := by
  have hcells := filter_of_rowChars h
  have hno : ∀ c : Char, c ≠ '/' → (∀ b, c ≠ cellText b) → c ∉ cs := by
    intro c hslash hcell hc
    have hmem : c ∈ bs.map cellText := hcells ▸ List.mem_filter.2 ⟨hc, by simpa using hslash⟩
    obtain ⟨b, -, rfl⟩ := List.mem_map.1 hmem
    exact hcell b rfl
  refine ⟨?_, hno _ (by decide) (by decide), hno _ (by decide) (by decide), hno _ (by decide) (by decide)⟩
  rintro rfl
  simp [rowChars] at h

/-! ### The word of a line -/

theorem assembleText_operandList {name o : List Char} {os : List (List Char)} {line : AsmLine}
    (hname : name ≠ [] ∧ ' ' ∉ name ∧ ';' ∉ name) (h : ∀ x ∈ o :: os, OperandText x)
    (hline : lineOf name (o :: os) = some line) :
    assembleText (name ++ ' ' :: operandList (o :: os)) = assembleWord line := by
  rw [assembleText, parseLine_operandList hname h, hline]

theorem assembleWord_of_assemble {line : AsmLine} {i : Instr} (h : assemble line = some i) :
    assembleWord line = if i.wf then some (encode i) else none := by
  rw [assembleWord, h]

/-- The word of a pixel command with operands as written, where they are bytes (R61, R79). -/
theorem assembleWord_pixel {line : AsmLine} {i : Instr} {op : BitVec 4} {row col val : Nat} (h : assemble line = some i)
    (hwf : i.wf = (fitsByte row && fitsByte col && fitsByte val)) (henc : encode i = formatP op row col val) :
    assembleWord line = if row < 256 ∧ col < 256 ∧ val < 256 then
      some (BitVec.ofNat 32 (op.toNat * 2 ^ 28 + row * 2 ^ 16 + col * 2 ^ 8 + val)) else none := by
  rw [assembleWord_of_assemble h, hwf, henc]
  by_cases hb : row < 256 ∧ col < 256 ∧ val < 256
  · obtain ⟨hr, hc, hv⟩ := hb
    rw [if_pos (pixel_wf_iff.2 ⟨hr, hc, hv⟩), if_pos ⟨hr, hc, hv⟩, formatP_eq_ofNat op hr hc hv]
  · rw [if_neg (mt pixel_wf_iff.1 hb), if_neg hb]

theorem assembleText_setPixel (row col val : Nat) :
    assembleText ("SETPIXEL ".toList ++ Nat.toDigits 10 row ++ ", ".toList ++ Nat.toDigits 10 col ++ ", ".toList ++
        Nat.toDigits 10 val) =
      if row < 256 ∧ col < 256 ∧ val < 256 then
        some (BitVec.ofNat 32 (0x20000000 + row * 2 ^ 16 + col * 2 ^ 8 + val)) else none := by
  have htext : "SETPIXEL ".toList ++ Nat.toDigits 10 row ++ ", ".toList ++ Nat.toDigits 10 col ++ ", ".toList ++
      Nat.toDigits 10 val =
      "SETPIXEL".toList ++ ' ' :: operandList [Nat.toDigits 10 row, Nat.toDigits 10 col, Nat.toDigits 10 val] := by
    simp [operandList_cons_cons, operandList_singleton]
  have hline : lineOf "SETPIXEL".toList [Nat.toDigits 10 row, Nat.toDigits 10 col, Nat.toDigits 10 val] =
      some (.setPixel row col val) := by
    simp [lineOf, decimal_toDigits]
  rw [htext, assembleText_operandList (by decide) (by simp [operandText_toDigits]) hline]
  exact assembleWord_pixel (op := 0x2) rfl rfl rfl

/-- The two pixel commands that are written without `val` get `val` 0 (R79). -/
theorem assembleText_pixelAddress {name : List Char} {op : BitVec 4} {row col : Nat} {line : AsmLine} {i : Instr}
    (hname : name ≠ [] ∧ ' ' ∉ name ∧ ';' ∉ name)
    (hline : lineOf name [Nat.toDigits 10 row, Nat.toDigits 10 col] = some line) (h : assemble line = some i)
    (hwf : i.wf = (fitsByte row && fitsByte col && fitsByte 0)) (henc : encode i = formatP op row col 0) :
    assembleText (name ++ ' ' :: (Nat.toDigits 10 row ++ ", ".toList ++ Nat.toDigits 10 col)) =
      if row < 256 ∧ col < 256 then
        some (BitVec.ofNat 32 (op.toNat * 2 ^ 28 + row * 2 ^ 16 + col * 2 ^ 8)) else none := by
  have htext : Nat.toDigits 10 row ++ ", ".toList ++ Nat.toDigits 10 col =
      operandList [Nat.toDigits 10 row, Nat.toDigits 10 col] := by
    simp [operandList_cons_cons, operandList_singleton]
  rw [htext, assembleText_operandList hname (by simp [operandText_toDigits]) hline, assembleWord_pixel h hwf henc]
  simp

theorem assembleText_togglePixel (row col : Nat) :
    assembleText ("TOGGLEPIXEL ".toList ++ Nat.toDigits 10 row ++ ", ".toList ++ Nat.toDigits 10 col) =
      if row < 256 ∧ col < 256 then some (BitVec.ofNat 32 (0x30000000 + row * 2 ^ 16 + col * 2 ^ 8)) else none := by
  have hline : lineOf "TOGGLEPIXEL".toList [Nat.toDigits 10 row, Nat.toDigits 10 col] = some (.togglePixel row col) := by
    simp [lineOf, decimal_toDigits]
  exact assembleText_pixelAddress (op := 0x3) (by decide) hline rfl rfl rfl

theorem assembleText_getPixel (row col : Nat) :
    assembleText ("GETPIXEL ".toList ++ Nat.toDigits 10 row ++ ", ".toList ++ Nat.toDigits 10 col) =
      if row < 256 ∧ col < 256 then some (BitVec.ofNat 32 (0x40000000 + row * 2 ^ 16 + col * 2 ^ 8)) else none := by
  have hline : lineOf "GETPIXEL".toList [Nat.toDigits 10 row, Nat.toDigits 10 col] = some (.getPixel row col) := by
    simp [lineOf, decimal_toDigits]
  exact assembleText_pixelAddress (op := 0x4) (by decide) hline rfl rfl rfl

/-- The line of an image string that is read (R64, R80). -/
theorem assembleText_setImage {image : List Char} {img : BitVec 25} (h : rowChars 5 image = some (fieldCells img)) :
    assembleText ("SETIMAGE ".toList ++ image) = some (BitVec.ofNat 32 (0x50000000 + img.toNat)) := by
  have hops : ∀ x ∈ [image], OperandText x := by simpa using operandText_of_rowChars h
  calc assembleText ("SETIMAGE ".toList ++ image)
    _ = assembleText ("SETIMAGE".toList ++ ' ' :: operandList [image]) := by rw [operandList_singleton]; rfl
    _ = assembleWord (.setImage image) := assembleText_operandList (by decide) hops (by simp [lineOf])
    _ = some (encode (.setImage img)) := assembleWord_of_assemble (assemble_setImage_iff.2 ⟨img, rfl, h⟩)
    _ = some (BitVec.ofNat 32 (0x50000000 + img.toNat)) := by rw [encode_setImage_eq_ofNat]

/-- Without a '/', the rows of an image are its 25 cells in a row (R80). -/
theorem assembleText_setImage_cells (img : BitVec 25) :
    assembleText ("SETIMAGE ".toList ++ List.ofFn fun n : Fin 25 => cellText (img.getLsbD n)) =
      some (BitVec.ofNat 32 (0x50000000 + img.toNat)) := by
  refine assembleText_setImage (rowChars_image_iff.2 ⟨false, false, false, false, ?_⟩)
  rw [rowsText_image]
  simp only [imageRowText, slashText, List.append_assoc]
  rfl

/-- With a '/' after every row but the last (R80). -/
theorem assembleText_setImage_rows (img : BitVec 25) :
    assembleText ("SETIMAGE ".toList ++ imageRowText img 0 ++ '/' :: imageRowText img 1 ++ '/' :: imageRowText img 2 ++
        '/' :: imageRowText img 3 ++ '/' :: imageRowText img 4) =
      some (BitVec.ofNat 32 (0x50000000 + img.toNat)) := by
  have hread := (rowChars_image_iff (img := img)).2 ⟨true, true, true, true, rfl⟩
  simpa [rowsText_image, slashText] using assembleText_setImage hread

/-- The line of a column string that is read (R65, R80). -/
theorem assembleText_setColumn (col : Nat) {string : List Char} {cells : BitVec 5}
    (h : rowChars 1 string = some (fieldCells cells)) :
    assembleText ("SETCOLUMN ".toList ++ Nat.toDigits 10 col ++ ", ".toList ++ string) =
      if col < 256 then some (BitVec.ofNat 32 (0x60000000 + col * 2 ^ 8 + cells.toNat)) else none := by
  have htext : "SETCOLUMN ".toList ++ Nat.toDigits 10 col ++ ", ".toList ++ string =
      "SETCOLUMN".toList ++ ' ' :: operandList [Nat.toDigits 10 col, string] := by
    simp [operandList_cons_cons, operandList_singleton]
  have hline : lineOf "SETCOLUMN".toList [Nat.toDigits 10 col, string] = some (.setColumn col string) := by
    simp [lineOf, decimal_toDigits]
  have hops : ∀ x ∈ [Nat.toDigits 10 col, string], OperandText x := by
    simpa using ⟨operandText_toDigits col, operandText_of_rowChars h⟩
  rw [htext, assembleText_operandList (by decide) hops hline,
    assembleWord_of_assemble (assemble_setColumn_iff.2 ⟨cells, rfl, h⟩)]
  by_cases hc : col < 256
  · rw [if_pos (setColumn_wf_iff.2 hc), if_pos hc, encode_setColumn_eq_ofNat hc]
  · rw [if_neg (mt setColumn_wf_iff.1 hc), if_neg hc]

/-- A word a line gives is the encoding of a well-formed command, so it decodes to the command. -/
theorem decode_of_assembleWord {line : AsmLine} {C : Command} (h : assembleWord line = some C) :
    ∃ i, assemble line = some i ∧ decode C = .ok i := by
  cases hi : assemble line with
  | none => simp [assembleWord, hi] at h
  | some i =>
    rw [assembleWord_of_assemble hi] at h
    split at h
    · obtain rfl := Option.some.inj h
      exact ⟨i, rfl, decode_encode ‹_›⟩
    · cases h

theorem decode_of_assembleText {text : List Char} {C : Command} (h : assembleText text = some C) :
    ∃ line i, parseLine text = some line ∧ assemble line = some i ∧ decode C = .ok i := by
  cases hline : parseLine text with
  | none => simp [assembleText, hline] at h
  | some line =>
    have hword : assembleWord line = some C := by simpa [assembleText, hline] using h
    obtain ⟨i, hi, hC⟩ := decode_of_assembleWord hword
    exact ⟨line, i, rfl, hi, hC⟩

/-- Settles O6, line by line of R79's table. -/
theorem assembledWordsDecode : Obligations.AssembledWordsDecode := by
  unfold Obligations.AssembledWordsDecode
  intro decimalText comma cell imageRow
  exact ⟨by decide, assembleText_setPixel, assembleText_togglePixel, assembleText_getPixel,
    fun img => ⟨assembleText_setImage_cells img, assembleText_setImage_rows img⟩,
    fun col cells => assembleText_setColumn col (rowChars_column_iff.2 rfl), by decide, by decide,
    fun text comment h => assembleText_comment h comment, assembleText_pad, fun line C => decode_of_assembleWord,
    fun text C => decode_of_assembleText⟩

end Sys2Proof

/-! The image commands (40_image_ops.md): the whole effect of each with nothing inside it, the soft-fails, toggling, reading
back what was stored (R98), and the three refresh steps that show one image (R99). -/

namespace Sys2Proof.Machine

/-! ### Mutators and soft-fails by their operands -/

theorem mutates_setPixel_iff {row col val : Nat} :
    mutates (.setPixel row col val) = true ↔ InRange row col ∧ ValInRange val := by
  simp [mutates, softFails]

theorem mutates_togglePixel_iff {row col val : Nat} : mutates (.togglePixel row col val) = true ↔ InRange row col := by
  simp [mutates, softFails]

theorem mutates_setColumn_iff {col : Nat} {cells : BitVec 5} :
    mutates (.setColumn col cells) = true ↔ ColInRange col := by
  simp [mutates, softFails]

theorem softFails_setPixel_iff {row col val : Nat} :
    softFails (.setPixel row col val) = true ↔ ¬ (InRange row col ∧ ValInRange val) := by
  simp only [softFails, Bool.not_eq_true', Bool.and_eq_false_iff, decide_eq_false_iff_not, not_and_or]

theorem softFails_togglePixel_iff {row col val : Nat} :
    softFails (.togglePixel row col val) = true ↔ ¬ InRange row col := by
  simp only [softFails, Bool.not_eq_true', decide_eq_false_iff_not]

theorem softFails_setColumn_iff {col : Nat} {cells : BitVec 5} :
    softFails (.setColumn col cells) = true ↔ ¬ ColInRange col := by
  simp only [softFails, Bool.not_eq_true', decide_eq_false_iff_not]

theorem mutates_of_softFails {i : Instr} (h : softFails i = true) : mutates i = false := by
  cases i <;> simp only [mutates, h, Bool.not_true]

/-- A soft-fail has no micro-step (R91). -/
theorem micros_of_softFails {i : Instr} (h : softFails i = true) : micros i = [] := by
  rcases micros_cases i with ⟨hm, -⟩ | ⟨-, -, hi, -⟩ | ⟨row, col, val, rfl, -⟩ | ⟨rfl, -⟩
  · rw [mutates_of_softFails h] at hm; cases hm
  · exact hi
  · cases h
  · cases h

/-- A soft-fail answers the state it was issued on, whatever the schedule (R91). -/
theorem exec_of_softFails {i : Instr} {s : State} (hr : s.Ready) (h : softFails i = true) : exec i s = .next s := by
  rw [exec_eq_issue, micros_of_softFails h, issue_nil hr]

/-! ### Commands that nothing interrupts -/

/-- The whole effect of a mutator without EMITSTEPs: the buffer, its packings, nothing stale, four turns used up (R51). -/
theorem exec_mutator_uninterrupted {i : Instr} {s : State} (hm : mutates i = true) (hemits : ownEmits i = 0) (hr : s.Ready)
    (hu : s.Uninterrupted 4) :
    exec i s = .next { s with
      px := bufferAfter i s.px, rw := packAll s.cfg.toCfgData (bufferAfter i s.px), stale := noneStale,
      env := s.env.drop 4 } := by
  obtain ⟨b, hi, hb⟩ := micros_of_mutates hm
  rw [hemits, List.replicate_zero, List.append_nil] at hi
  rw [exec_eq_issue, hi, issue_mutator b hr hu, hb]

/-- A command of one micro-step that comes at once, by a turn of the schedule or after its end. -/
theorem issue_single_uninterrupted (m : Micro) {s : State} (hr : s.Ready) (hu : s.Uninterrupted 1) :
    ∃ p, issue [m] s = .next (setEnv (s.env.drop 1) (runMicro m p s)) := by
  obtain ⟨p, hrun⟩ := runTurns_last (m := m) (s := setTodo [m] s) rfl hu
  have htodo : (runMicro m p s).todo = [] := by simp [hr.2]
  have hdone : setTodo [] (runMicro m p s) = runMicro m p s := by rw [← htodo]; rfl
  exact ⟨p, by rw [issue_ready _ hr, hrun, runMicro_setTodo, setTodo_setTodo, hdone]⟩

theorem exec_getPixel_uninterrupted (row col val : Nat) {s : State} (hr : s.Ready) (hu : s.Uninterrupted 1) :
    exec (.getPixel row col val) s = .next (setEnv (s.env.drop 1) (respond (pixelResponse s row col) s)) := by
  obtain ⟨p, h⟩ := issue_single_uninterrupted (.respond (cellOf row col)) hr hu
  rw [runMicro, responseOf_cellOf] at h
  exact h

theorem pixelResponse_inRange {row col : Nat} (h : InRange row col) (s : State) :
    pixelResponse s row col = if s.px[idx row col]'(idx_lt h) then 0x01 else 0x00 := dif_pos h

theorem pixelResponse_outOfRange {row col : Nat} (h : ¬ InRange row col) (s : State) :
    pixelResponse s row col = s.cfg.pixelErr := dif_neg h

/-! ### Addresses -/

/-- Different addresses in range reach different cells (R41). -/
theorem idx_inj {r c row col : Nat} (h : InRange r c) (h' : InRange row col) :
    idx row col = idx r c ↔ r = row ∧ c = col := by
  unfold idx; omega

theorem idx_div {r c : Nat} (h : InRange r c) : idx r c / 5 = r - 1 := by
  unfold idx; omega

theorem idx_mod {r c : Nat} (h : InRange r c) : idx r c % 5 + 1 = c := by
  unfold idx; omega

/-- The cells a SETCOLUMN leaves, by their addresses (R97). -/
theorem getElem_bufferAfter_setColumn_idx {col r c : Nat} (cells : BitVec 5) (px : Pixels) (hcol : ColInRange col)
    (h : InRange r c) :
    (bufferAfter (.setColumn col cells) px)[idx r c]'(idx_lt h) =
      if c = col then cells.getLsbD (r - 1) else px[idx r c]'(idx_lt h) := by
  simp only [bufferAfter_setColumn, if_pos hcol, Vector.getElem_ofFn, idx_div h, idx_mod h, Fin.getElem_fin]

/-! ### Settled: the commands with no tick inside -/

/-- Settles O26: SETPIXEL is a mutator exactly when it does not soft-fail, and `bufferAfter` sets its cell. -/
theorem setPixelWritesItsCell : Obligations.SetPixelWritesItsCell := by
  intro s row col val hr hu
  refine ⟨fun h => ?_, fun h => exec_of_softFails hr (softFails_setPixel_iff.2 h)⟩
  have hexec := exec_mutator_uninterrupted (mutates_setPixel_iff.2 h) rfl hr hu
  rwa [bufferAfter_setPixel, dif_pos h] at hexec

/-- Settles O27: TOGGLEPIXEL is a mutator exactly when its address is in range, and `bufferAfter` complements the cell. -/
theorem togglePixelComplementsItsCell : Obligations.TogglePixelComplementsItsCell := by
  intro s row col val hr hu
  refine ⟨fun h => ?_, fun h => exec_of_softFails hr (softFails_togglePixel_iff.2 h)⟩
  have hexec := exec_mutator_uninterrupted (mutates_togglePixel_iff (val := val).2 h) rfl hr hu
  rwa [bufferAfter_togglePixel, dif_pos h] at hexec

/-- Settles O28: the one micro-step responds `pixelResponse`, and K4 tells the sentinel from a cell's value. -/
theorem getPixelRespondsCellOrSentinel : Obligations.GetPixelRespondsCellOrSentinel := by
  intro s row col val hr hu
  obtain ⟨-, -, -, -, hK4⟩ := s.cfg.legal
  have hexec := exec_getPixel_uninterrupted row col val hr hu
  refine ⟨fun h => ?_, fun h => ?_, hK4⟩
  · rwa [pixelResponse_inRange h] at hexec
  · rwa [pixelResponse_outOfRange h] at hexec

/-- Settles O29: the new buffer is `bufferAfter`, which has the bits of `img` cell by cell. -/
theorem setImageReplacesBuffer : Obligations.SetImageReplacesBuffer := by
  intro s img hr hu
  refine ⟨bufferAfter (.setImage img) s.px, fun i => ?_, exec_mutator_uninterrupted rfl rfl hr hu⟩
  simp [bufferAfter_setImage]

/-- Settles O30: the new buffer is `bufferAfter`, whose cells by their addresses are `getElem_bufferAfter_setColumn_idx`. -/
theorem setColumnReplacesItsColumn : Obligations.SetColumnReplacesItsColumn := by
  intro s col cells hr hu
  refine ⟨fun h => ?_, fun h => exec_of_softFails hr (softFails_setColumn_iff.2 h)⟩
  exact ⟨bufferAfter (.setColumn col cells) s.px,
    fun r c hrc => getElem_bufferAfter_setColumn_idx cells s.px h hrc,
    exec_mutator_uninterrupted (mutates_setColumn_iff.2 h) rfl hr hu⟩

/-- Settles O33: a soft-fail has no micro-step, and GETPIXEL's one is port M's turn at the head of the schedule. -/
theorem softFailedCommandsChangeNothing : Obligations.SoftFailedCommandsChangeNothing := by
  intro s row col val hr
  refine ⟨fun h => ?_, fun h => ⟨?_, fun p ts he => ?_⟩, fun h cells => ?_⟩
  · exact exec_of_softFails hr (softFails_setPixel_iff.2 fun hin => h (and_assoc.1 hin))
  · exact exec_of_softFails hr (softFails_togglePixel_iff.2 h)
  · have hexec := exec_getPixel_uninterrupted row col val hr (by rw [State.Uninterrupted, he]; simp [Turn.isMain])
    rwa [pixelResponse_outOfRange h, he] at hexec
  · exact exec_of_softFails hr (softFails_setColumn_iff.2 h)

/-! ### Three refresh steps -/

/-- Three EMITSTEPs with nothing between them emit each row-word once, from the cursor on, and turn the cursor all the way
round; `out` shows the third row-word, since each clears what the one before it set (R99). -/
theorem emitStep_three {s : State} (hconf : s.Confined) :
    emitStep (emitStep (emitStep s)) = { s with
      out := (s.out &&& s.cfg.notLedMask) ||| s.rw[rotate s.cur 2],
      events := s.events ++
        emissions s.cfg.ledMask [s.rw[s.cur], s.rw[rotate s.cur 1], s.rw[rotate s.cur 2]] } := by
  have hc1 : s.cur + 1 = rotate s.cur 1 := add_one_eq_rotate s.cur
  have hc2 : s.cur + 1 + 1 = rotate s.cur 2 := by rw [hc1, add_one_eq_rotate, rotate_rotate]
  have hc3 : s.cur + 1 + 1 + 1 = s.cur := by rw [hc2, add_one_eq_rotate, rotate_rotate, rotate_three]
  ext1
  case cur => exact hc3
  case out => simp only [emitStep_out, emitStep_cfg, emitStep_rw, emitStep_cur, setInside_and_notW (hconf _), hc2]
  case events =>
    simp only [emitStep_events, emitStep_cfg, emitStep_rw, emitStep_cur, hc2, ← hc1, emissions_cons, emissions_nil,
      List.append_assoc, List.cons_append, List.nil_append]
  all_goals simp only [emitStep_cfg, emitStep_px, emitStep_rw, emitStep_stale, emitStep_todo, emitStep_constructed,
    emitStep_portM, emitStep_env, emitStep_responses]

/-- Settles O47: a refresh step of either port is one EMITSTEP, and on a quiescent block the row-words are the packings. -/
theorem threeRefreshStepsShowOneFrame : Obligations.ThreeRefreshStepsShowOneFrame := by
  intro s v1 v2 v3 hr hinv
  obtain ⟨-, hrw⟩ := hinv.quiescent hr.2
  obtain ⟨-, -, hconf, -⟩ := hinv
  refine ⟨_, _, _, refreshBy_ready v1 hr, refreshBy_ready v2 hr, refreshBy_ready v3 hr, ?_⟩
  rw [emitStep_three hconf, hrw, hrw, hrw]
  exact ⟨rfl, rfl, rfl⟩

/-! ### CLEARIMAGE -/

/-- The block as CLEARIMAGE's mutator part leaves it, before its EMITSTEPs (R92). -/
def cleared (s : State) : State := { s with px := blank, rw := s.cfg.base, stale := noneStale }

/-- K3 for the base masks. -/
theorem cleared_confined (s : State) : (cleared s).Confined := by
  intro g
  obtain ⟨-, -, -, hK3, -⟩ := s.cfg.legal
  exact (hK3 g).1

theorem exec_clearImage_uninterrupted {s : State} (hr : s.Ready) (hu : s.Uninterrupted 7) :
    exec .clearImage s = .next (setEnv (s.env.drop 7) (emitStep (emitStep (emitStep (cleared s))))) := by
  obtain ⟨b, hi, hb⟩ := micros_of_mutates (i := .clearImage) rfl
  obtain ⟨ps, hps, hrun⟩ := runTurns_uninterrupted (ts := s.env) (s := setTodo (micros .clearImage) s) hu
  have hlen : ps.length = 7 := hps
  obtain ⟨p, q, r, hpqr⟩ := List.length_eq_three.mp (show (ps.drop 4).length = 3 by simp [hlen])
  have hstart : setTodo [] (cleared s) = cleared s := by rw [cleared, ← hr.2]; rfl
  have hemits : [p, q, r].foldl (fun s p => mainTurn p s) (setTodo (List.replicate 3 .emit) (cleared s)) =
      emitStep (emitStep (emitStep (cleared s))) := by
    calc _
      _ = emitStep (emitStep (emitStep (setTodo [] (cleared s)))) := rfl
      _ = emitStep (emitStep (emitStep (cleared s))) := by rw [hstart]
  rw [exec_eq_issue, issue_ready _ hr, hrun, hi, foldl_mainTurn_mutator b _ ps s (by omega), hb, bufferAfter_clearImage,
    packAll_blank, hpqr]
  exact congrArg (fun t => Host.Outcome.next (setEnv (s.env.drop 7) t)) hemits

/-- Settles O31: nothing inside, the three EMITSTEPs are `emitStep_three`; otherwise the mutator part is any mutator's, and
three refresh steps more than the ticks leave the cursor where the ticks alone do. -/
theorem clearImageBlanksAndEmitsThreeRows : Obligations.ClearImageBlanksAndEmitsThreeRows := by
  refine ⟨fun s hr hu => ?_, fun s t h => ?_⟩
  · rw [exec_clearImage_uninterrupted hr hu, emitStep_three (cleared_confined s)]
    rfl
  · obtain ⟨hpx, hrw, -⟩ := exec_of_mutates rfl h
    rw [bufferAfter_clearImage, packAll_blank] at hrw
    obtain ⟨used, ws, henv, hlen, hcur, -⟩ := onlyRefreshStepsMoveTheCursor s t .clearImage h
    refine ⟨hpx, hrw, used, henv, ?_⟩
    rw [hcur, hlen, ownEmits, ← rotate_rotate, rotate_three]

/-! ### TOGGLEPIXEL -/

theorem bufferAfter_togglePixel_twice (row col v w : Nat) (px : Pixels) :
    bufferAfter (.togglePixel row col w) (bufferAfter (.togglePixel row col v) px) = px := by
  simp only [bufferAfter_togglePixel]
  split
  · simp
  · rfl

/-- Settles O34: the buffer comes back, and on a quiescent block the row-words follow it. -/
theorem togglePixelTwiceRestores : Obligations.TogglePixelTwiceRestores := by
  intro s t u row col v w hs ht hu
  have hpx : u.px = s.px := by rw [exec_px hu, exec_px ht, bufferAfter_togglePixel_twice]
  obtain ⟨hr, -⟩ := exec_next ht
  obtain ⟨-, hutodo, -⟩ := exec_next hu
  have hcfg : u.cfg = s.cfg := (exec_cfg hu).trans (exec_cfg ht)
  exact ⟨hpx, (quiescent_cache_eq hs (exec_inv (exec_inv hs ht) hu) hr.2 hutodo hcfg hpx).1⟩

/-- Complementing a cell is XORing in the image of that cell alone. -/
theorem set_not_eq_xor_single (px : Pixels) (i : CellIdx) :
    px.set i.val (!px[i]) = Vector.ofFn fun j => px[j] ^^ (blank.set i.val true)[j] := by
  ext1 j hj
  rw [Vector.getElem_ofFn, getElem_blank_set, Vector.getElem_set]
  by_cases h : i.val = j
  · subst h; simp
  · simp [h, Fin.ext_iff]

/-- Complementing the cell of slot (g0, k0) flips that slot's bit of the row-word of g0 and no other bit (R73, K1, K2). -/
theorem pack_toggle (c : Cfg) (px : Pixels) {g0 : RowGroup} {k0 : Slot} {i : CellIdx} (hi : c.cellAt g0 k0 = some i)
    (g : RowGroup) :
    pack c.toCfgData g (px.set i.val (!px[i])) =
      pack c.toCfgData g px ^^^ (if g = g0 then (1 : Word) <<< c.posAt g0 k0 else 0) := by
  have hsingle : pack c.toCfgData g (blank.set i.val true) =
      c.baseAt g ^^^ (if g = g0 then (1 : Word) <<< c.posAt g0 k0 else 0) := by
    rw [(singlePixelFlipsOneBit c g).2 g0 k0 i hi]
    split
    · subst g0; rfl
    · exact (Nat.xor_zero _).symm
  have hlinear := packIsLinear c g px (blank.set i.val true)
  rw [← set_not_eq_xor_single, hsingle] at hlinear
  rw [Nat.xor_comm (c.baseAt g) (ite ..), Nat.xor_xor_cancel_right, Nat.xor_right_comm] at hlinear
  exact Nat.xor_left_injective hlinear

/-- Settles O35: the bit is the one of the slot that K1 gives the cell. -/
theorem togglePixelFlipsOneRowWordBit : Obligations.TogglePixelFlipsOneRowWordBit := by
  intro s t row col v hs hin h
  obtain ⟨hr, -⟩ := exec_next h
  obtain ⟨-, hold⟩ := hs.quiescent hr.2
  obtain ⟨⟨-, -, hslots⟩, hK1, -⟩ := s.cfg.legal
  obtain ⟨g0, k0, hi, -⟩ := hK1 ⟨idx row col, idx_lt hin⟩
  obtain ⟨-, hpos⟩ := hslots g0
  obtain ⟨-, hrw, -⟩ := exec_of_mutates (mutates_togglePixel_iff.2 hin) h
  have hnew (g : RowGroup) : t.rw[g] = s.rw[g] ^^^ (if g = g0 then (1 : Word) <<< s.cfg.posAt g0 k0 else 0) := by
    rw [hrw, bufferAfter_togglePixel, dif_pos hin, hold,
      ← pack_toggle s.cfg s.px hi g]
    simp [packAll]
  refine ⟨g0, s.cfg.posAt g0 k0, hpos k0 (by simp [hi]), ?_, fun g' hg' => ?_⟩
  · rw [hnew, if_pos rfl]
  · rw [hnew, if_neg hg', Nat.xor_zero]

/-! ### Read after write -/

/-- A command of a lawful schedule leaves a block on which a GETPIXEL completes, and responds from the buffer left (R98). -/
theorem exec_reads {i : Instr} {s t : State} {r c : Nat} (hl : s.Lawful) (hin : InRange r c) (h : exec i s = .next t) :
    t.Reads r c (if (bufferAfter i s.px)[idx r c]'(idx_lt hin) then 0x01 else 0x00) := by
  intro val
  obtain ⟨hr, htodo, -, used, k, henv, -, -, ht⟩ := exec_next h
  have hready : t.Ready := ⟨by rw [ht]; simp [hr.1], htodo⟩
  have hlawful : t.Lawful := fun u hu => hl u (henv ▸ List.mem_append_right used hu)
  obtain ⟨u, hu⟩ := exec_lawful (.getPixel r c val) hready hlawful
  refine ⟨u, hu, ?_⟩
  rw [exec_getPixel_responses hu, pixelResponse_inRange hin]
  simp only [exec_px h]

theorem getElem_bufferAfter_setPixel_idx {row col val r c : Nat} (px : Pixels) (hset : InRange row col)
    (hval : ValInRange val) (h : InRange r c) :
    (bufferAfter (.setPixel row col val) px)[idx r c]'(idx_lt h) =
      if r = row ∧ c = col then val == 1 else px[idx r c]'(idx_lt h) := by
  simp only [bufferAfter_setPixel, dif_pos (And.intro hset hval), Vector.getElem_set, idx_inj h hset]

theorem getElem_bufferAfter_togglePixel_idx {r c : Nat} (v : Nat) (px : Pixels) (h : InRange r c) :
    (bufferAfter (.togglePixel r c v) px)[idx r c]'(idx_lt h) = !px[idx r c]'(idx_lt h) := by
  simp only [bufferAfter_togglePixel, dif_pos h, Vector.getElem_set_self]

/-- Settles O45: GETPIXEL responds the cell of the buffer the store left, store by store. -/
theorem readAfterWrite : Obligations.ReadAfterWrite := by
  intro s t i r c hl hin h
  have hreads := exec_reads hl hin h
  refine ⟨?setPixel, ?togglePixel, ?setImage, ?setColumn, ?clearImage, ?softFail⟩
  case setPixel =>
    rintro row col val rfl hset hval
    rw [getElem_bufferAfter_setPixel_idx s.px hset hval hin] at hreads
    rw [pixelResponse_inRange hin]
    have hbyte : (if (val == 1) = true then 0x01 else 0x00 : Byte) = BitVec.ofNat 8 val := by
      rcases hval with rfl | rfl <;> rfl
    by_cases hcell : r = row ∧ c = col
    · simpa only [if_pos hcell, hbyte] using hreads
    · simpa only [if_neg hcell] using hreads
  case togglePixel =>
    rintro v rfl
    rw [getElem_bufferAfter_togglePixel_idx v s.px hin] at hreads
    rw [pixelResponse_inRange hin]
    cases hcell : s.px[idx r c]'(idx_lt hin) <;> rwa [hcell] at hreads
  case setImage =>
    rintro img rfl
    simpa only [bufferAfter_setImage, Vector.getElem_ofFn] using hreads
  case setColumn =>
    rintro col cells rfl hcol
    rw [getElem_bufferAfter_setColumn_idx cells s.px hcol hin] at hreads
    rw [pixelResponse_inRange hin]
    by_cases hcell : c = col
    · simpa only [if_pos hcell] using hreads
    · simpa only [if_neg hcell] using hreads
  case clearImage =>
    rintro rfl
    simpa [bufferAfter_clearImage, blank] using hreads
  case softFail =>
    intro hsoft
    rw [pixelResponse_inRange hin]
    simpa only [bufferAfter_of_not_mutates (mutates_of_softFails hsoft)] using hreads

end Sys2Proof.Machine

/-! Refresh steps (41_refresh.md): one EMITSTEP as one change of the state, from port M (R101) and from port T (R102),
and what the refresh steps of a whole run leave (R103). -/

namespace Sys2Proof.Machine

/-! ### One EMITSTEP -/

/-- R100 as one change of the state. -/
theorem emitStep_eq (s : State) :
    emitStep s = { s with
      cur := rotate s.cur 1, out := (s.out &&& s.cfg.notLedMask) ||| s.rw[s.cur],
      events := s.events ++ [.clr s.cfg.ledMask, .set s.rw[s.cur]] } := by
  have hevents : (emitStep s).events = s.events ++ [.clr s.cfg.ledMask, .set s.rw[s.cur]] := by
    rw [emitStep_events, List.append_assoc, List.singleton_append]
  rw [← hevents, ← add_one_eq_rotate]
  rfl

/-- Settles O32: REFRESH's one micro-step is an EMITSTEP, and it comes at once. -/
theorem refreshEmitsRowAtCursor : Obligations.RefreshEmitsRowAtCursor := by
  intro s hr hu
  obtain ⟨p, h⟩ := issue_single_uninterrupted .emit hr hu
  rw [runMicro, emitStep_eq] at h
  exact h

/-- Settles O11: on a quiescent block and inside a command alike, a tick's turn is `emitStep`. -/
theorem tickIsOneRefreshStep : Obligations.TickIsOneRefreshStep := by
  refine ⟨fun s ts hr he => ?quiescent, fun s ts htodo => ?inProgress⟩
  case quiescent =>
    rw [step_of_otherTurn hr he rfl, takeTurn, emitStep_eq]
    rfl
  case inProgress =>
    rw [runTurns_cons ts htodo rfl, playTurn, emitStep_eq]

/-! ### The rotation over a run -/

/-- Between `s` and `t` the block has performed refresh steps: the output history has grown by whole emissions and the
cursor has moved once for each (R103), and the block is the same one, reset or not as before. -/
def State.RotatesTo (s t : State) : Prop :=
  t.cfg = s.cfg ∧ t.constructed = s.constructed ∧
    ∃ ws : List Word, t.events = s.events ++ emissions s.cfg.ledMask ws ∧ t.cur = rotate s.cur ws.length

theorem State.RotatesTo.refl (s : State) : s.RotatesTo s := ⟨rfl, rfl, [], by simp⟩

theorem State.RotatesTo.trans {s t u : State} (hst : s.RotatesTo t) (htu : t.RotatesTo u) : s.RotatesTo u := by
  obtain ⟨hcfg, hreset, ws, hevents, hcur⟩ := hst
  obtain ⟨hcfg', hreset', ws', hevents', hcur'⟩ := htu
  refine ⟨hcfg'.trans hcfg, hreset'.trans hreset, ws ++ ws', ?_, ?_⟩
  · rw [hevents', hevents, hcfg, emissions_append, List.append_assoc]
  · rw [hcur', hcur, rotate_rotate, List.length_append]

theorem playTurn_rotates (u : Turn) (s : State) : s.RotatesTo (playTurn u s) := by
  refine ⟨playTurn_cfg u s, playTurn_constructed u s, ?_⟩
  rcases playTurn_emits u s with ⟨hcur, hevents, -⟩ | ⟨hcur, hevents, -⟩
  · exact ⟨[s.rw[s.cur]], hevents, hcur⟩
  · exact ⟨[], by simpa using hevents, by simpa using hcur⟩

theorem play_rotates (us : List Turn) (s : State) : s.RotatesTo (play us s) :=
  play_induct (fun u _ h => h.trans (playTurn_rotates u _)) us s (.refl s)

theorem runTurns_rotates {us : List Turn} {s t : State} (h : runTurns us s = .next t) : s.RotatesTo t := by
  obtain ⟨used, k, -, -, -, -, ht⟩ := runTurns_next h
  rw [ht]
  exact play_rotates (used ++ List.replicate k (.main 0)) s

theorem exec_rotates {i : Instr} {s t : State} (h : exec i s = .next t) : s.RotatesTo t := by
  obtain ⟨-, -, hrun, -⟩ := exec_next h
  exact runTurns_rotates (s := setTodo (micros i) s) hrun

theorem issueNext_rotates {s t : State} (h : issueNext s = .next t) : s.RotatesTo t := by
  rcases issueNext_cases h with ⟨-, rfl⟩ | ⟨C, Cs, -, ⟨i, -, hexec⟩ | ⟨-, rfl⟩⟩
  · exact .refl t
  · exact exec_rotates (s := setPortM Cs s) hexec
  · exact .refl s

/-- The reset event apart, which puts the cursor at 0, a step moves the cursor by refresh steps only. -/
theorem step_rotates {s t : State} (hreset : s.constructed = true) (h : step s = .next t) : s.RotatesTo t := by
  rcases step_cases h with ⟨hnot, -⟩ | ⟨-, -, hrun⟩ | ⟨-, u, us, -, -, hturn⟩ | ⟨-, us, -, hissue⟩
  · rw [hreset] at hnot
    cases hnot
  · exact runTurns_rotates hrun
  · obtain ⟨-, rfl⟩ := takeTurn_next_lawful hturn
    exact playTurn_rotates u (setEnv us s)
  · exact issueNext_rotates (s := setEnv us s) hissue

theorem run_rotates {n : Nat} {s t : State} (hreset : s.constructed = true) (h : core.run n s = .next t) :
    s.RotatesTo t := by
  refine run_induct (fun u v hu hstep => ?_) n s t (.refl s) h
  have hureset : u.constructed = true := by
    obtain ⟨-, hsame, -⟩ := hu
    rw [hsame, hreset]
  exact hu.trans (step_rotates hureset hstep)

/-- Settles O48: a run of a reset block is made of turns, and each turn emits at the cursor and moves it, or does
neither. -/
theorem rotationCountsEmissions : Obligations.RotationCountsEmissions := by
  intro n s t hreset h
  obtain ⟨-, -, hws⟩ := run_rotates hreset h
  exact hws

end Sys2Proof.Machine

/-! Exceptions and bounds (60_exceptions.md): a reset block under a lawful schedule always answers. An idle block holds its
state (R124), a command in progress runs to its end (R115), and every command is one of at most seven micro-steps (R119). -/

namespace Sys2Proof.Machine

/-! ### An idle block -/

theorem issueNext_of_idle {s : State} (h : s.portM = []) : issueNext s = .next s := by
  simp [issueNext, fetch, h]

/-- Settles O10: port M's turn issues nothing. -/
theorem idleBlockHolds : Obligations.IdleBlockHolds := by
  intro s ts hr hp hidle
  rw [step_of_portMGoes hr hp, issueNext_of_idle (s := setEnv ts s) hidle]
  rfl

/-! ### A command in progress -/

theorem step_of_inProgress {s : State} (hreset : s.constructed = true) (htodo : s.todo ≠ []) :
    step s = runTurns s.env s := by
  cases hm : s.todo with
  | nil => exact absurd hm htodo
  | cons m ms => simp [step, hreset, hm]

/-- What the run of a command leaves of configuration, reset mark and port M's words (R29, R49). -/
theorem runTurns_frame {us : List Turn} {s t : State} (h : runTurns us s = .next t) :
    t.cfg = s.cfg ∧ t.constructed = s.constructed ∧ t.portM = s.portM := by
  obtain ⟨used, k, -, -, -, -, ht⟩ := runTurns_next h
  rw [ht]
  simp

/-- Settles O12: a step runs the turns of the schedule until no micro-step is left, and every lawful turn answers. -/
theorem commandInProgressContinues : Obligations.CommandInProgressContinues := by
  intro s hreset htodo hl
  obtain ⟨t, hrun⟩ := runTurns_lawful s hl
  obtain ⟨hcfg, hconstructed, hportM⟩ := runTurns_frame hrun
  exact ⟨t, by rw [step_of_inProgress hreset htodo, hrun], ⟨hconstructed.trans hreset, runTurns_todo hrun⟩, hcfg, hportM⟩

/-! ### A command from its issue -/

/-- A command that answers leaves a reset, quiescent block with port M's words as they were. -/
theorem exec_ready {i : Instr} {s t : State} (h : exec i s = .next t) : t.Ready ∧ t.portM = s.portM := by
  obtain ⟨⟨hreset, -⟩, htodo, hrun, -⟩ := exec_next h
  obtain ⟨-, hconstructed, hportM⟩ := runTurns_frame hrun
  exact ⟨⟨hconstructed.trans hreset, htodo⟩, hportM⟩

/-- Settles O38: each turn of port M performs one of the command's micro-steps, of which there are at most seven. -/
theorem commandsAreBounded : Obligations.CommandsAreBounded := by
  intro s i hr hl
  obtain ⟨t, h⟩ := exec_lawful i hr hl
  obtain ⟨-, -, -, used, k, henv, -, hcount, -⟩ := exec_next h
  obtain ⟨hready, -⟩ := exec_ready h
  have hlen := micros_length_le i
  exact ⟨t, used, h, hready, henv, by omega⟩

/-- Any word at the head of port M's is issued and used up: a command runs to its end, and a reserved opcode does nothing
(R67, R110). -/
theorem issueNext_lawful {s : State} {C : Command} {Cs : List Command} (hr : s.Ready) (hl : s.Lawful)
    (hC : s.portM = C :: Cs) : ∃ t, issueNext s = .next t ∧ t.Ready ∧ t.portM = Cs := by
  cases hd : decode C with
  | ok i =>
    obtain ⟨t, h⟩ := exec_lawful i (s := setPortM Cs s) hr hl
    obtain ⟨hready, hportM⟩ := exec_ready h
    exact ⟨t, by rw [issueNext_of_decode hC hd, h], hready, hportM⟩
  | error e =>
    obtain ⟨op⟩ := e
    exact ⟨setPortM Cs s, issueNext_of_reserved hC hd, hr, rfl⟩

/-- Settles O37: port M's turn leaves a lawful schedule for the word it issues, and there is no reason to fault. -/
theorem everyCommandWordCompletes : Obligations.EveryCommandWordCompletes := by
  refine ⟨fun s C Cs ts hr hl hp hC => ?completes, fun _ r => nomatch r⟩
  case completes =>
    have hrest : (setEnv ts s).Lawful := fun u hu => hl u (mem_env_of_portMGoes hp hu)
    rw [step_of_portMGoes hr hp]
    exact issueNext_lawful (s := setEnv ts s) hr hrest hC

end Sys2Proof.Machine

/-! Reset and hazards (70_reset_and_hazards.md): the reset event of an un-reset block (R130 to R132), and a write of the
environment inside LED_MASK (R139). -/

namespace Sys2Proof.Machine

/-! ### Writes inside LED_MASK -/

/-- A write of the environment inside LED_MASK puts its value there and leaves the other bits (R139). -/
theorem ledWrite_shows_value (v : Word) (s : State) :
    (ledWrite v s).out &&& s.cfg.ledMask = v &&& s.cfg.ledMask ∧
      (ledWrite v s).out &&& s.cfg.notLedMask = s.out &&& s.cfg.notLedMask :=
  ⟨(merge_and_mask _ v s.out _).1, (merge_and_notW _ v s.out _).1⟩

/-- Settles O14: the write keeps the row-words W bits wide and inside LED_MASK, so the tick's EMITSTEP shows the row-word
at the cursor whatever the write left. -/
theorem nextRefreshRepairsLedWrite : Obligations.NextRefreshRepairsLedWrite := by
  intro s v ts hr hs hc he
  obtain ⟨hwritten, hkept⟩ := ledWrite_shows_value v s
  obtain ⟨-, hrepaired, hkept'⟩ := emitStep_shows_rowWord (s := setEnv ts (ledWrite v s)) (ledWrite_sized v hs) hc
  have hwrite : step s = .next (ledWrite v (setEnv (.tick :: ts) s)) := step_of_otherTurn hr he rfl
  have htick : step (ledWrite v (setEnv (.tick :: ts) s)) = .next (emitStep (setEnv ts (ledWrite v s))) :=
    step_of_otherTurn (s := ledWrite v (setEnv (.tick :: ts) s)) hr rfl rfl
  exact ⟨_, _, hwrite, hwritten, hkept, htick, hrepaired, hkept'.trans hkept⟩

/-! ### The reset event -/

/-- The reset event is the step of an un-reset block (R32, R130). -/
theorem step_of_construct {s : State} {ts : List Turn} (hreset : s.constructed = false) (he : s.env = .construct :: ts) :
    step s = .next (construct (setEnv ts s)) := by
  simp [step, hreset, unresetStep, he]

/-- The reset values of R31 with the row-words at their base masks, which are the packing of the blank buffer. -/
theorem construct_eq (s : State) :
    construct s = { s with
      px := blank, rw := s.cfg.base, cur := 0, stale := noneStale, todo := [], constructed := true } := by
  rw [construct, packAll_blank]

/-- Settles O16: the reset event leaves a reset, quiescent block, on which a refresh step of either port is one EMITSTEP,
and it puts the cursor at 0 and BASE[0] at the row-word there. -/
theorem constructionResetsAndEmitsNothing : Obligations.ConstructionResetsAndEmitsNothing := by
  intro s ts hreset he
  refine ⟨_, step_of_construct hreset he, construct_eq _, fun viaTick => ?_⟩
  refine ⟨_, refreshBy_ready viaTick ⟨rfl, rfl⟩, ?_⟩
  rw [construct_eq, emitStep_eq]
  rfl

end Sys2Proof.Machine
